-- ==== Sys2Proof/Word.lean ====
section
/-! DEFINITION. The word types of the YSL-VM core.

spec/00_scope.md R7: a byte is 8 bits, a word is 16 bits, every value is unsigned.
spec/10_state.md R14: the instruction pointer is 17 bits wide, so that 65536 is representable. -/

namespace Sys2Proof

/-- A byte (R7). -/
abbrev Byte := BitVec 8

/-- A word: "a 16-bit unsigned value" (R7). -/
abbrev Word := BitVec 16

/-- A program offset, 0 to 65536, in 17 bits (R14); also the width of a fault record's `info` (R20). -/
abbrev Offset := BitVec 17

end Sys2Proof
end

