-- ==== Sys2Proof/Syntax.lean ====
section
/-! DEFINITION. The abstract syntax: the 28 instructions of spec/00_scope.md R2 with the operands that
spec/30_encoding.md R54 and R56 give each. An operand of any value is legal (R58). -/

namespace Sys2Proof

/-- The 28 mnemonics, in the order of the table of spec/30_encoding.md R56. -/
inductive Mnemonic where
  | nop | psh | pop | lsp | ssp | jmp | jnz | lca | sca | cmp
  | add | sub | mul | div | mod | waw | raw | sel | ldc | inc
  | dec | not | and | bor | xor | pac | cma | hlt
  deriving DecidableEq, Repr

/-- The four instruction formats of spec/30_encoding.md R51, one per operand shape. -/
inductive Format where
  /-- No operand. -/
  | f0
  /-- One byte. -/
  | fb
  /-- One word. -/
  | fw
  /-- Two words. -/
  | fww
  deriving DecidableEq, Repr

/-- One constructor per row of spec/opcode_table.json. Operand kinds are those of R54: `v` an immediate
word, `a` a data address, `t` a program offset, `id` a device id. -/
inductive Instr where
  | nop
  | psh (v : Word)
  | pop
  | lsp (a : Word)
  | ssp (a : Word)
  | jmp (t : Word)
  | jnz (t : Word)
  | lca (a : Word)
  | sca (a : Word)
  | cmp (a1 a2 : Word)
  | add (a : Word)
  | sub (a : Word)
  | mul (a : Word)
  | div (a : Word)
  | mod (a : Word)
  | waw
  | raw
  | sel (id : Byte)
  | ldc (v : Word)
  | inc
  | dec
  | not
  | and (a : Word)
  | bor (a : Word)
  | xor (a : Word)
  | pac
  | cma (a : Word)
  | hlt
  deriving DecidableEq, Repr

end Sys2Proof
end

