-- ==== Sys2Proof/Config.lean ====
section
/-! DEFINITION. What a launch of the core fixes (spec/00_scope.md R5, R6): the launch parameters as plain
data, their limits, and the values this model names where the spec leaves a parameter to the launch. -/

namespace Sys2Proof

/-- `OPCODE_MAP` (R5, spec/30_encoding.md R56): the byte of each of the 28 opcodes. The spec gives no byte
of the original's, so the map is a launch parameter (decision D1); the default is `OpcodeMap.default`. -/
structure OpcodeMap where
  nop : Byte
  psh : Byte
  pop : Byte
  lsp : Byte
  ssp : Byte
  jmp : Byte
  jnz : Byte
  lca : Byte
  sca : Byte
  cmp : Byte
  add : Byte
  sub : Byte
  mul : Byte
  div : Byte
  mod : Byte
  waw : Byte
  raw : Byte
  sel : Byte
  ldc : Byte
  inc : Byte
  dec : Byte
  not : Byte
  and : Byte
  bor : Byte
  xor : Byte
  pac : Byte
  cma : Byte
  hlt : Byte
  deriving DecidableEq, Repr

/-- What the host can do to the console input while the core waits on a read: "the wait ends only by an
action of the host (a byte arrives or the input is closed)" (spec/44_device_io.md R97, decision D13). -/
inductive HostAction where
  /-- One byte arrives on the input stream. -/
  | supply (c : Byte)
  /-- The host closes the input stream. -/
  | close
  deriving DecidableEq, Repr

/-- The arguments of a launch (R5). `MEM_INIT` is a memory in the canonical form of
`Sys2Proof.Machine.Memory`; every function from `0 .. MEM_SIZE-1` to bytes is exactly one such list. -/
structure Launch where
  /-- `PROG`; `PROG_LEN` is its length. -/
  prog         : List Byte
  /-- `MEM_SIZE`. -/
  memSize      : Nat
  /-- `MEM_INIT`. -/
  memInit      : List Host.Cell
  /-- `OPCODE_MAP`. -/
  opcodeMap    : OpcodeMap
  /-- `EOF_SENTINEL`. -/
  eofSentinel  : Word
  /-- `INPUT`. -/
  input        : List Byte
  /-- `INPUT_CLOSED`. -/
  inputClosed  : Bool
  /-- What the host will do to a read that waits, first action first (D13). -/
  hostActions  : List HostAction
  deriving DecidableEq, Repr

/-- The greatest `PROG_LEN` that is admitted (R6, decision D4). -/
def Config.maxProgLen : Nat := 65536

/-- The greatest `MEM_SIZE` that is admitted (R6, decision D19). -/
def Config.maxMemSize : Nat := 65536

/-- What a byte of data memory reads as when the memory list does not name its address.
DESIGN CHOICE (notes/assumptions/3.md), unsafe only for `State.reset`: `MEM_INIT` itself is free. -/
def Config.unlistedByte : Byte := 0x00

/-- The `MEM_SIZE` of `State.reset`: the whole 16-bit address space.
DESIGN CHOICE (notes/assumptions/4.md): the spec leaves it to the launch. -/
def Config.resetMemSize : Nat := 65536

/-- The default of `EOF_SENTINEL` (R5, decision D12). -/
def Config.defaultEofSentinel : Word := 0xFFFF

end Sys2Proof
end

