-- ==== Sys2Proof/Decode.lean ====
section
/-! DEFINITION. Encoding and decoding (spec/30_encoding.md): formats, the opcode map, operand assembly, the
decoder (total on any bytes, rejecting by name) and after it the encoder and the Program Builder's calls. -/

namespace Sys2Proof

/-! ## Formats and lengths -/

/-- Every mnemonic once, in table order (R56). -/
def Mnemonic.all : List Mnemonic :=
  [.nop, .psh, .pop, .lsp, .ssp, .jmp, .jnz, .lca, .sca, .cmp] ++
  [.add, .sub, .mul, .div, .mod, .waw, .raw, .sel, .ldc, .inc] ++
  [.dec, .not, .and, .bor, .xor, .pac, .cma, .hlt]

/-- The operand shape of each opcode (R56). -/
def Mnemonic.format : Mnemonic → Format
  | .nop | .pop | .waw | .raw | .inc | .dec | .not | .pac | .hlt => .f0
  | .sel => .fb
  | .psh | .lsp | .ssp | .jmp | .jnz | .lca | .sca | .add | .sub | .mul | .div | .mod
  | .ldc | .and | .bor | .xor | .cma => .fw
  | .cmp => .fww

/-- The size of the operands in bytes (R51). -/
def Format.operandSize : Format → Nat
  | .f0  => 0
  | .fb  => 1
  | .fw  => 2
  | .fww => 4

/-- The length of an instruction of this format: 1, 2, 3 or 5 bytes (R50, R51). -/
def Format.length (f : Format) : Nat := 1 + f.operandSize

/-- The opcode of an instruction. -/
def Instr.mnemonic : Instr → Mnemonic
  | .nop     => .nop
  | .psh _   => .psh
  | .pop     => .pop
  | .lsp _   => .lsp
  | .ssp _   => .ssp
  | .jmp _   => .jmp
  | .jnz _   => .jnz
  | .lca _   => .lca
  | .sca _   => .sca
  | .cmp _ _ => .cmp
  | .add _   => .add
  | .sub _   => .sub
  | .mul _   => .mul
  | .div _   => .div
  | .mod _   => .mod
  | .waw     => .waw
  | .raw     => .raw
  | .sel _   => .sel
  | .ldc _   => .ldc
  | .inc     => .inc
  | .dec     => .dec
  | .not     => .not
  | .and _   => .and
  | .bor _   => .bor
  | .xor _   => .xor
  | .pac     => .pac
  | .cma _   => .cma
  | .hlt     => .hlt

/-- The length of an instruction in bytes. -/
def Instr.length (i : Instr) : Nat := i.mnemonic.format.length

/-! ## The opcode map -/

/-- The byte `OPCODE_MAP` gives an opcode. -/
def OpcodeMap.byteOf (om : OpcodeMap) : Mnemonic → Byte
  | .nop => om.nop
  | .psh => om.psh
  | .pop => om.pop
  | .lsp => om.lsp
  | .ssp => om.ssp
  | .jmp => om.jmp
  | .jnz => om.jnz
  | .lca => om.lca
  | .sca => om.sca
  | .cmp => om.cmp
  | .add => om.add
  | .sub => om.sub
  | .mul => om.mul
  | .div => om.div
  | .mod => om.mod
  | .waw => om.waw
  | .raw => om.raw
  | .sel => om.sel
  | .ldc => om.ldc
  | .inc => om.inc
  | .dec => om.dec
  | .not => om.not
  | .and => om.and
  | .bor => om.bor
  | .xor => om.xor
  | .pac => om.pac
  | .cma => om.cma
  | .hlt => om.hlt

/-- `OPCODE_MAP` is injective (R5): no byte stands for two opcodes. -/
def OpcodeMap.injective (om : OpcodeMap) : Bool := decide (Mnemonic.all.map om.byteOf).Nodup

/-- The opcode a byte stands for; `none` for an unrecognized byte (R55, R57). -/
def OpcodeMap.opcodeOf (om : OpcodeMap) (op : Byte) : Option Mnemonic :=
  Mnemonic.all.find? fun m => om.byteOf m == op

/-- The default opcode map, the table of R56: table order from 0x00.
DESIGN CHOICE of the spec (decision D1, notes/assumptions/1.md): not the original repository's bytes. -/
def OpcodeMap.default : OpcodeMap where
  nop := 0x00
  psh := 0x01
  pop := 0x02
  lsp := 0x03
  ssp := 0x04
  jmp := 0x05
  jnz := 0x06
  lca := 0x07
  sca := 0x08
  cmp := 0x09
  add := 0x0A
  sub := 0x0B
  mul := 0x0C
  div := 0x0D
  mod := 0x0E
  waw := 0x0F
  raw := 0x10
  sel := 0x11
  ldc := 0x12
  inc := 0x13
  dec := 0x14
  not := 0x15
  and := 0x16
  bor := 0x17
  xor := 0x18
  pac := 0x19
  cma := 0x1A
  hlt := 0x1B

/-! ## Byte order -/

/-- The word of two bytes, `hi ++ lo`, that is `256 * hi + lo` (spec/00_scope.md R8; R52; spec/20_memory.md R33, R34:
fetch and data agree). -/
def wordOfBytes (lo hi : Byte) : Word := BitVec.ofNat 16 (256 * hi.toNat + lo.toNat)

/-- `w[7:0]`, the byte at the lower offset or address. -/
def loByte (w : Word) : Byte := w.extractLsb' 0 8

/-- `w[15:8]`, the byte at the higher offset or address. -/
def hiByte (w : Word) : Byte := w.extractLsb' 8 8

/-! ## The decoder -/

/-- What the decoder reads from the bytes at the instruction pointer. -/
inductive Decoded where
  /-- An instruction, with the bytes that follow it. -/
  | instr (i : Instr) (rest : List Byte)
  /-- The first byte is no opcode: a 1-byte unrecognized instruction (R57). -/
  | unknownOpcode (op : Byte)
  /-- The opcode is recognized but its operands run past the end (spec/40_loop_and_control.md R64). -/
  | truncated (m : Mnemonic)
  /-- There is no byte at all (R63). -/
  | noByte
  deriving DecidableEq, Repr

/-- Operands of format FB: the one byte after the opcode (R53). -/
def takeByte (k : Byte → Instr) : List Byte → Option (Instr × List Byte)
  | b :: rest => some (k b, rest)
  | _         => none

/-- Operands of format FW: two bytes, low byte first (R52). -/
def takeWord (k : Word → Instr) : List Byte → Option (Instr × List Byte)
  | lo :: hi :: rest => some (k (wordOfBytes lo hi), rest)
  | _                => none

/-- Operands of format FWW: two words, each low byte first (R51). -/
def takeTwoWords (k : Word → Word → Instr) : List Byte → Option (Instr × List Byte)
  | lo1 :: hi1 :: lo2 :: hi2 :: rest => some (k (wordOfBytes lo1 hi1) (wordOfBytes lo2 hi2), rest)
  | _                                => none

/-- The operands of an opcode, from the bytes that follow it (R54, R56); `none` if they are not all there. -/
def decodeOperands (m : Mnemonic) (bs : List Byte) : Option (Instr × List Byte) :=
  match m with
  | .nop => some (.nop, bs)
  | .psh => takeWord .psh bs
  | .pop => some (.pop, bs)
  | .lsp => takeWord .lsp bs
  | .ssp => takeWord .ssp bs
  | .jmp => takeWord .jmp bs
  | .jnz => takeWord .jnz bs
  | .lca => takeWord .lca bs
  | .sca => takeWord .sca bs
  | .cmp => takeTwoWords .cmp bs
  | .add => takeWord .add bs
  | .sub => takeWord .sub bs
  | .mul => takeWord .mul bs
  | .div => takeWord .div bs
  | .mod => takeWord .mod bs
  | .waw => some (.waw, bs)
  | .raw => some (.raw, bs)
  | .sel => takeByte .sel bs
  | .ldc => takeWord .ldc bs
  | .inc => some (.inc, bs)
  | .dec => some (.dec, bs)
  | .not => some (.not, bs)
  | .and => takeWord .and bs
  | .bor => takeWord .bor bs
  | .xor => takeWord .xor bs
  | .pac => some (.pac, bs)
  | .cma => takeWord .cma bs
  | .hlt => some (.hlt, bs)

/-- The decoder (R55), total on any bytes. The order is that of spec/60_exceptions.md R107: is there a byte,
is it an opcode, are its operands all there. -/
def decode (om : OpcodeMap) : List Byte → Decoded
  | []         => .noByte
  | op :: rest =>
    match om.opcodeOf op with
    | none   => .unknownOpcode op
    | some m =>
      match decodeOperands m rest with
      | some (i, rest') => .instr i rest'
      | none            => .truncated m

/-! ## The encoder -/

/-- A word operand in the program: low byte, then high byte (R52). -/
def wordBytes (w : Word) : List Byte := [loByte w, hiByte w]

/-- The operand bytes of an instruction (R51). -/
def Instr.operandBytes : Instr → List Byte
  | .psh v     => wordBytes v
  | .lsp a     => wordBytes a
  | .ssp a     => wordBytes a
  | .jmp t     => wordBytes t
  | .jnz t     => wordBytes t
  | .lca a     => wordBytes a
  | .sca a     => wordBytes a
  | .cmp a1 a2 => wordBytes a1 ++ wordBytes a2
  | .add a     => wordBytes a
  | .sub a     => wordBytes a
  | .mul a     => wordBytes a
  | .div a     => wordBytes a
  | .mod a     => wordBytes a
  | .sel id    => [id]
  | .ldc v     => wordBytes v
  | .and a     => wordBytes a
  | .bor a     => wordBytes a
  | .xor a     => wordBytes a
  | .cma a     => wordBytes a
  | .nop | .pop | .waw | .raw | .inc | .dec | .not | .pac | .hlt => []

/-- The bytes of an instruction: the opcode byte, then the operands with no gap (R50, R51). -/
def encode (om : OpcodeMap) (i : Instr) : List Byte := om.byteOf i.mnemonic :: i.operandBytes

/-- A program is its instructions' bytes "with no gaps" (R50). -/
def encodeProgram (om : OpcodeMap) (is : List Instr) : List Byte := is.flatMap (encode om)

/-- The Program Builder's `addInstruction` (R59). -/
def addInstruction (buffer : List Byte) (b : Byte) : List Byte := buffer ++ [b]

/-- The Program Builder's `addByteParameter` (R59). -/
def addByteParameter (buffer : List Byte) (b : Byte) : List Byte := buffer ++ [b]

/-- The Program Builder's `addWordParameter`: "low byte then high byte" (R59). -/
def addWordParameter (buffer : List Byte) (w : Word) : List Byte := buffer ++ [loByte w, hiByte w]

/-! ## The opcode table's words -/

/-- The longest instruction (R50). -/
def maxInstrLength : Nat := 5

/-- The bytes of a table word, first byte from the low 8 bits: `maxInstrLength` bytes, those above `nbits`
being zero. -/
def tableBytes (nbits w : Nat) : List Byte :=
  (List.range maxInstrLength).map fun k => BitVec.ofNat 8 (w % 2 ^ nbits / 256 ^ k)

/-- The instruction the decoder reads from a word of spec/opcode_table.json, which is written with the default
opcode map (R56). -/
def decodeTableWord (nbits w : Nat) : Option Instr :=
  match decode OpcodeMap.default (tableBytes nbits w) with
  | .instr i _       => some i
  | .unknownOpcode _ => none
  | .truncated _     => none
  | .noByte          => none

end Sys2Proof
end

