-- ==== Sys2Proof/Machine/Memory.lean ====
section
/-! DEFINITION. The data memory as a list of (address, byte) pairs in one canonical form: addresses strictly
rising, no entry equal to what an unlisted address reads as (spec/20_memory.md R31). -/

namespace Sys2Proof.Machine

/-- The data memory's bytes. -/
abbrev Memory := List Host.Cell

/-- Every address of the list is above `a`. -/
def Memory.above (a : Nat) : Memory → Bool
  | []     => true
  | c :: _ => decide (a < c.1)

/-- The canonical form: addresses strictly rising, no entry that an unlisted address would read as. -/
def Memory.wf : Memory → Bool
  | []     => true
  | c :: m => (c.2 != Config.unlistedByte) && (Memory.above c.1 m && Memory.wf m)

/-- Every listed address exists: it is below `n` (R31: bytes 0 to `MEM_SIZE - 1`). -/
def Memory.within (n : Nat) (m : Memory) : Bool := m.all fun c => decide (c.1 < n)

/-- The byte at an address. -/
def Memory.readByte : Memory → Nat → Byte
  | [],     _ => Config.unlistedByte
  | c :: m, a => if a = c.1 then c.2 else Memory.readByte m a

/-- Put a cell in front, unless it says what an unlisted address reads as anyway. -/
def Memory.consCell (a : Nat) (b : Byte) (m : Memory) : Memory :=
  if b = Config.unlistedByte then m else (a, b) :: m

/-- Write the byte at an address. -/
def Memory.writeByte : Memory → Nat → Byte → Memory
  | [],     a, b => Memory.consCell a b []
  | c :: m, a, b =>
    if a < c.1 then Memory.consCell a b (c :: m)
    else if a = c.1 then Memory.consCell a b m
    else c :: Memory.writeByte m a b

end Sys2Proof.Machine
end

