-- ==== Sys2Proof/Machine/State.lean ====
section
/-! DEFINITION. Everything the spec gives the machine (spec/10_state.md), the launch parameters it runs under
(spec/00_scope.md R5), and the console streams of the host (R11, R22), as plain data; and the state after reset. -/

namespace Sys2Proof.Machine

/-- The run status (R19). -/
inductive RunStatus where
  /-- The core executes steps. -/
  | running
  /-- The run ended by HLT. -/
  | halted
  /-- The run ended by a fatal fault. -/
  | faulted
  deriving DecidableEq, Repr

/-- The fatal faults of spec/60_exceptions.md R102. They are state of the core, not outcomes of a step. -/
inductive FatalKind where
  | ipOverrun
  | outOfBounds
  | stackOverflow
  | divideByZero
  deriving DecidableEq, Repr

/-- The fault record (R20): a kind and a 17-bit information value. -/
structure FaultRecord where
  kind : FatalKind
  info : Offset
  deriving DecidableEq, Repr

/-- The incidents of spec/60_exceptions.md R105. -/
inductive IncidentKind where
  | unknownOpcode
  | unknownDeviceWrite
  | unknownDeviceRead
  deriving DecidableEq, Repr

/-- One record `(code, ip, value)` of the incident log (R21). -/
structure Incident where
  kind  : IncidentKind
  ip    : Offset
  value : Byte
  deriving DecidableEq, Repr

/-- The machine. The first eight fields are the core's (R12 to R21, R31); the next four are the launch
parameters, fixed for a run; the last four are the host's console streams and the host agent (R22, D13). -/
structure State where
  /-- The accumulator (R12). -/
  acc          : Word
  /-- The instruction pointer (R14). -/
  ip           : Offset
  /-- The stack pointer (R15). -/
  sp           : Word
  /-- The selected device id (R16). -/
  device       : Byte
  /-- The run status (R19). -/
  status       : RunStatus
  /-- The fault record, `none` while it is empty (R20). -/
  fault        : Option FaultRecord
  /-- The incident log, oldest record first (R21). -/
  incidents    : List Incident
  /-- The data memory in canonical form (R31; `Memory.wf`). -/
  mem          : List Host.Cell
  /-- `PROG`, the program space; `PROG_LEN` is its length (R30). -/
  prog         : List Byte
  /-- `MEM_SIZE` (R5). -/
  memSize      : Nat
  /-- `OPCODE_MAP` (R5). -/
  opcodeMap    : OpcodeMap
  /-- `EOF_SENTINEL` (R5). -/
  eofSentinel  : Word
  /-- The bytes of `INPUT` not consumed yet (R22). -/
  input        : List Byte
  /-- `INPUT_CLOSED`: no byte follows those in `input` (R97). -/
  inputClosed  : Bool
  /-- The console output stream, oldest byte first (R96). -/
  output       : List Byte
  /-- The host agent's coming actions on a read that waits, first action first (D13). The model's own field:
  DESIGN CHOICE, notes/assumptions/6.md. -/
  hostActions  : List HostAction
  deriving DecidableEq, Repr

/-- Why no step is possible. A fatal fault of the core is not one of these: it is a next state with status
FAULTED. -/
inductive Fault where
  /-- Raised by `step` alone, when the run has ended by HLT: "no step is enabled" (R19, R120). Safe: the spec
  gives a halted core no step. -/
  | runHalted
  /-- Raised by `step` alone, when the run has ended by a fatal fault (R104, R120). Safe: the spec gives a
  faulted core no step. -/
  | runFaulted
  deriving DecidableEq, Repr

/-- What the model gives no meaning. -/
inductive Refusal where
  /-- Raised by an arm of `exec` whose instruction has no meaning yet. Safe. No arm raises it. -/
  | notModelled (mnemonic : String)
  /-- Raised by `launch` on a launch that is not admitted: "a model refuses any other launch rather than give it a
  meaning" (spec/00_scope.md R6; further ranges, notes/assumptions/16.md), and by `step` on a state that no admitted
  launch leads to (notes/assumptions/7.md). Safe. -/
  | launchNotAdmitted
  /-- Raised by `boot` when the program bytes could not be obtained: there is then no launch (R6, R122). Safe. -/
  | programNotObtained
  deriving DecidableEq, Repr

/-- What a step or a meaning answers. -/
abbrev Result := Host.Outcome State Fault Refusal

/-- The machine right after reset (spec/70_reset_and_hazards.md R119): registers 0, RUNNING, no fault, no
incident. The launch parameters are those of the launch with nothing supplied: no program, no input, the
default opcode map and sentinel, the whole address space as memory (notes/assumptions/1.md to 5.md).
`State.ofLaunch` is the reset of any launch. -/
def State.reset : State where
  acc          := 0x0000
  ip           := 0
  sp           := 0x0000
  device       := 0x00
  status       := .running
  fault        := none
  incidents    := []
  mem          := []
  prog         := []
  memSize      := Config.resetMemSize
  opcodeMap    := OpcodeMap.default
  eofSentinel  := Config.defaultEofSentinel
  input        := []
  inputClosed  := false
  output       := []
  hostActions  := []

end Sys2Proof.Machine
end

