-- ==== Sys2Proof/Machine/Ops.lean ====
section
/-! DEFINITION. The named operations of spec/00_scope.md R9 over registers and memory, the fatal fault (the only
form of exception the core has, spec/60_exceptions.md R103, R110; there is no return from one, R111), the
incident (R106), the push and the device transactions. -/

namespace Sys2Proof.Machine

/-! ## Arithmetic -/

/-- `wrap16(v) = v mod 65536` (R8). -/
def wrap16 (v : Nat) : Word := BitVec.ofNat 16 v

/-- `zext_16(b)` (R8). -/
def zext16 (b : Byte) : Word := b.setWidth 16

/-! ## Registers -/

/-- `acc <- v`. -/
def State.setAcc (v : Word) (s : State) : State := { s with acc := v }

/-- `sp <- v`; nothing checks the value (spec/10_state.md R15). -/
def State.setSp (v : Word) (s : State) : State := { s with sp := v }

/-- `device <- id`; any value is accepted (R16). -/
def State.setDevice (id : Byte) (s : State) : State := { s with device := id }

/-- `ip <- t`: a 16-bit target zero-extended to the 17-bit `ip`, not checked
(spec/40_loop_and_control.md R66, R68). -/
def State.jumpTo (t : Word) (s : State) : State := { s with ip := t.setWidth 17 }

/-- `ip <- next`, with `next = ip + length` (R62, R65). -/
def State.advance (length : Nat) (s : State) : State := { s with ip := s.ip + BitVec.ofNat 17 length }

/-- `halt` (R9): the run status becomes HALTED. -/
def State.halt (s : State) : State := { s with status := .halted }

/-! ## Fatal faults -/

/-- The state a fatal fault leaves: status FAULTED and the record written, nothing else changed (R103). -/
def State.faultWith (kind : FatalKind) (info : Offset) (s : State) : State :=
  { s with status := .faulted, fault := some { kind := kind, info := info } }

/-- `raise Fatal(kind, info)` (R9, R103): the one way an exception is taken. It is a next state, whose status
ends the run; control goes nowhere (R110). -/
def raiseFatal (kind : FatalKind) (info : Offset) (s : State) : Result := .next (s.faultWith kind info)

/-! ## Incidents -/

/-- `report Incident(code, ip, value)` (R9, R106): one record is appended; execution goes on. -/
def State.report (kind : IncidentKind) (value : Byte) (s : State) : State :=
  { s with incidents := s.incidents ++ [{ kind := kind, ip := s.ip, value := value }] }

/-! ## Data memory -/

/-- `InBounds(a)`: both bytes of a word at `a` exist, in unbounded arithmetic (R9, spec/20_memory.md R39). -/
abbrev State.InBounds (s : State) (a : Nat) : Prop := a + 1 < s.memSize

/-- `mem[a]`. -/
def State.readByte (s : State) (a : Nat) : Byte := Memory.readByte s.mem a

/-- `MemRead(a, 2) = mem[a+1] ++ mem[a]` (R33). -/
def State.readWord (s : State) (a : Nat) : Word := wordOfBytes (s.readByte a) (s.readByte (a + 1))

/-- `MemWrite(a, 2, v)`: `mem[a] <- v[7:0]`, then `mem[a+1] <- v[15:8]` (R33). -/
def State.writeWord (a : Nat) (v : Word) (s : State) : State :=
  { s with mem := Memory.writeByte (Memory.writeByte s.mem a (loByte v)) (a + 1) (hiByte v) }

/-- The push that PSH and PAC share (spec/41_stack.md R72, R76): check the word at `sp + 1`, computed without
wrap-around, then move `sp` and write. -/
def pushWord (v : Word) (length : Nat) (s : State) : Result :=
  if s.InBounds (s.sp.toNat + 1) then
    .next (((s.setSp (wrap16 (s.sp.toNat + 1))).writeWord (s.sp.toNat + 1) v).advance length)
  else raiseFatal .stackOverflow (BitVec.ofNat 17 (s.sp.toNat + 1)) s

/-! ## Devices -/

/-- The devices of this hardware: the character console (spec/44_device_io.md R95, R96, R97). -/
inductive Device where
  | console
  deriving DecidableEq, Repr

/-- The dispatcher's table: id 0x00 is the console, every other id has no device (R95, spec/20_memory.md R32). -/
def deviceAt (id : Byte) : Option Device := if id = 0x00 then some .console else none

/-- The console emits one character, the byte `v[7:0]`, unchanged (R96). -/
def State.emit (v : Word) (s : State) : State := { s with output := s.output ++ [loByte v] }

/-- `DevWrite(id, v)` (R96, R98): all 16 bits go to the device; an unknown one is an incident. -/
def devWrite (id : Byte) (v : Word) (s : State) : State :=
  match deviceAt id with
  | some .console => s.emit v
  | none          => s.report .unknownDeviceWrite id

/-- The input stream's remaining bytes become `cs`. -/
def State.setInput (cs : List Byte) (s : State) : State := { s with input := cs }

/-- `DevRead(id)` (R97, R98): the value read and the state after the read, or `none` while the read waits. -/
def devRead (id : Byte) (s : State) : Option (Word × State) :=
  match deviceAt id with
  | some .console =>
    match s.input with
    | c :: cs => some (zext16 c, s.setInput cs)
    | []      => if s.inputClosed then some (s.eofSentinel, s) else none
  | none => some (0x0000, s.report .unknownDeviceRead id)

/-- The host's next action on the waiting console, if it has one: a byte arrives or the input is closed
(R97, D13). With none to come the state stands still: the core holds. -/
def State.hostActs (s : State) : State :=
  match s.hostActions with
  | []               => s
  | .supply c :: acts => { s with input := s.input ++ [c], hostActions := acts }
  | .close :: acts    => { s with inputClosed := true, hostActions := acts }

end Sys2Proof.Machine
end

