-- ==== Sys2Proof/Machine/Flags.lean ====
section
/-! DEFINITION. The core has no flags and no condition codes (spec/10_state.md R17): what stands in their place is
the one condition an instruction tests, and the value a compare delivers in `acc`. -/

namespace Sys2Proof.Machine

/-- "The only condition any instruction tests is `acc != 0`" (R17). -/
def State.accNonzero (s : State) : Bool := s.acc != 0x0000

/-- A compare's result: exactly 0xFFFF for equal, exactly 0x0000 for unequal (R17). -/
def compareResult (x y : Word) : Word := if x = y then 0xFFFF else 0x0000

end Sys2Proof.Machine
end

