-- ==== Sys2Proof/Machine/Operands.lean ====
section
/-! DEFINITION. The operand forms of spec/30_encoding.md R54 in use. Immediates, program offsets and device ids
are used as they stand (R52, R53); a data address names the memory word at it, checked first
(spec/20_memory.md R39). -/

namespace Sys2Proof.Machine

/-- Go on only if the word at the data address `a` is in bounds; else OUT_OF_BOUNDS with `info = a` (R39, R102). -/
def withAddress (a : Word) (s : State) (k : Result) : Result :=
  if s.InBounds a.toNat then k else raiseFatal .outOfBounds (a.setWidth 17) s

/-- Go on with the memory word at the data address `a`, checked first. -/
def withOperand (a : Word) (s : State) (k : Word → Result) : Result :=
  withAddress a s (k (s.readWord a.toNat))

/-- Go on with the memory word at `a` as a divisor: bounds first, then DIVIDE_BY_ZERO with `info = a`
(spec/43_alu.md R86, R87; spec/60_exceptions.md R107). -/
def withDivisor (a : Word) (s : State) (k : Word → Result) : Result :=
  withOperand a s fun m => if m = 0 then raiseFatal .divideByZero (a.setWidth 17) s else k m

/-- An instruction that only replaces `acc`, then advances. -/
def setAccNext (v : Word) (f : Format) (s : State) : Result := .next ((s.setAcc v).advance f.length)

/-- `acc <- f(acc, word at a)`, format FW: the shape of the binary ALU instructions (spec/43_alu.md). -/
def accWithOperand (f : Word → Word → Word) (a : Word) (s : State) : Result :=
  withOperand a s fun m => setAccNext (f s.acc m) .fw s

/-- The word at `a` is written, format FW: the shape of LCA and LSP. -/
def storeNext (a v : Word) (s : State) : Result :=
  withAddress a s (.next ((s.writeWord a.toNat v).advance Format.fw.length))

end Sys2Proof.Machine
end

