-- ==== Sys2Proof/Machine/AccMemory.lean ====
section
/-! DEFINITION. Accumulator load, store and compare (spec/42_acc_memory.md). The mnemonics do not describe the
direction: LCA writes memory, SCA reads it. -/

namespace Sys2Proof.Machine

/-- LCA (R78): write `acc` to the word at `a`. -/
def execLca (a : Word) (s : State) : Result := storeNext a s.acc s

/-- SCA (R79): read the word at `a` into `acc`. -/
def execSca (a : Word) (s : State) : Result := withOperand a s fun m => setAccNext m .fw s

/-- CMP (R80): compare the memory words at `a1` and `a2`; `a1` is checked first. -/
def execCmp (a1 a2 : Word) (s : State) : Result :=
  withOperand a1 s fun m1 => withOperand a2 s fun m2 => setAccNext (compareResult m1 m2) .fww s

/-- LDC (R81): load an immediate; no address check applies. -/
def execLdc (v : Word) (s : State) : Result := setAccNext v .fw s

/-- CMA (R82): compare the word at `a` with `acc`. -/
def execCma (a : Word) (s : State) : Result :=
  withOperand a s fun m => setAccNext (compareResult m s.acc) .fw s

end Sys2Proof.Machine
end

