-- ==== Sys2Proof/Machine/Alu.lean ====
section
/-! DEFINITION. Arithmetic and logic (spec/43_alu.md): the 16-bit unsigned operations, computed exactly on natural
numbers and narrowed at the end (R8, R94), and the eleven instructions. -/

namespace Sys2Proof.Machine

/-! ## Operations -/

/-- `wrap16(x + m)` (R83). -/
def aluAdd (x m : Word) : Word := wrap16 (x.toNat + m.toNat)

/-- `wrap16(x + 65536 - m)` (R84). -/
def aluSub (x m : Word) : Word := wrap16 (x.toNat + 65536 - m.toNat)

/-- `wrap16(x * m)` (R85). -/
def aluMul (x m : Word) : Word := wrap16 (x.toNat * m.toNat)

/-- `floor(x / m)` (R86); used for `m != 0` only. -/
def aluDiv (x m : Word) : Word := wrap16 (x.toNat / m.toNat)

/-- `x mod m` (R87); used for `m != 0` only. -/
def aluMod (x m : Word) : Word := wrap16 (x.toNat % m.toNat)

/-- `wrap16(x + 1)` (R88). -/
def aluInc (x : Word) : Word := wrap16 (x.toNat + 1)

/-- `wrap16(x + 65535)` (R89). -/
def aluDec (x : Word) : Word := wrap16 (65535 + x.toNat)

/-- "Every bit of `acc` inverted", which is `0xFFFF - x` (R90). -/
def aluNot (x : Word) : Word := ~~~x

/-! ## Instructions -/

/-- ADD (R83). -/
def execAdd (a : Word) (s : State) : Result := accWithOperand aluAdd a s

/-- SUB (R84). -/
def execSub (a : Word) (s : State) : Result := accWithOperand aluSub a s

/-- MUL (R85). -/
def execMul (a : Word) (s : State) : Result := accWithOperand aluMul a s

/-- DIV (R86). -/
def execDiv (a : Word) (s : State) : Result :=
  withDivisor a s fun m => setAccNext (aluDiv s.acc m) .fw s

/-- MOD (R87). -/
def execMod (a : Word) (s : State) : Result :=
  withDivisor a s fun m => setAccNext (aluMod s.acc m) .fw s

/-- INC (R88). -/
def execInc (s : State) : Result := setAccNext (aluInc s.acc) .f0 s

/-- DEC (R89). -/
def execDec (s : State) : Result := setAccNext (aluDec s.acc) .f0 s

/-- NOT (R90). -/
def execNot (s : State) : Result := setAccNext (aluNot s.acc) .f0 s

/-- AND (R91). -/
def execAnd (a : Word) (s : State) : Result := accWithOperand (fun x m => x &&& m) a s

/-- BOR (R92). -/
def execBor (a : Word) (s : State) : Result := accWithOperand (fun x m => x ||| m) a s

/-- XOR (R93). -/
def execXor (a : Word) (s : State) : Result := accWithOperand (fun x m => x ^^^ m) a s

end Sys2Proof.Machine
end

