-- ==== Sys2Proof/Machine/Control.lean ====
section
/-! DEFINITION. Control transfer (spec/40_loop_and_control.md): NOP, JMP, JNZ, HLT and the unrecognized byte. -/

namespace Sys2Proof.Machine

/-- NOP (R67). -/
def execNop (s : State) : Result := .next (s.advance Format.f0.length)

/-- JMP (R68): the target is not checked (R66). -/
def execJmp (t : Word) (s : State) : Result := .next (s.jumpTo t)

/-- JNZ (R69). -/
def execJnz (t : Word) (s : State) : Result :=
  if s.accNonzero then .next (s.jumpTo t) else .next (s.advance Format.fw.length)

/-- HLT (R70): the status becomes HALTED and `ip` advances. -/
def execHlt (s : State) : Result := .next (s.halt.advance Format.f0.length)

/-- An unrecognized opcode byte (R71): an incident, then `ip <- ip + 1`. -/
def execUnknown (op : Byte) (s : State) : Result := .next ((s.report .unknownOpcode op).advance 1)

end Sys2Proof.Machine
end

