-- ==== Sys2Proof/Machine/DeviceIO.lean ====
section
/-! DEFINITION. Device I/O (spec/44_device_io.md): WAW, RAW and SEL over the dispatcher of `devWrite`, `devRead`. -/

namespace Sys2Proof.Machine

/-- WAW (R99): write `acc` to the selected device. -/
def execWaw (s : State) : Result := .next ((devWrite s.device s.acc s).advance Format.f0.length)

/-- RAW (R100): read the selected device into `acc`. While a console read waits, the core holds with `ip` on the
RAW and nothing of its state changed; only the host acts (R97, R118). -/
def execRaw (s : State) : Result :=
  match devRead s.device s with
  | some (r, t) => setAccNext r .f0 t
  | none        => .next s.hostActs

/-- SEL (R101): select a device; the id is not checked. -/
def execSel (id : Byte) (s : State) : Result := .next ((s.setDevice id).advance Format.fb.length)

end Sys2Proof.Machine
end

