-- ==== Sys2Proof/Machine/Stack.lean ====
section
/-! DEFINITION. Stack instructions (spec/41_stack.md). `sp` moves by one byte per push or pop while a push writes
two, so successive pushes overlap (R77). -/

namespace Sys2Proof.Machine

/-- PSH (R72): push an immediate word. -/
def execPsh (v : Word) (s : State) : Result := pushWord v Format.fw.length s

/-- POP (R73): read the word at `sp`, then `sp <- wrap16(sp + 65535)`; no underflow fault (decision D5). -/
def execPop (s : State) : Result :=
  withOperand s.sp s fun m =>
    .next (((s.setAcc m).setSp (wrap16 (65535 + s.sp.toNat))).advance Format.f0.length)

/-- LSP (R74): write `sp` to the word at `a`. -/
def execLsp (a : Word) (s : State) : Result := storeNext a s.sp s

/-- SSP (R75): load `sp` from the word at `a`; the value is not checked. -/
def execSsp (a : Word) (s : State) : Result :=
  withOperand a s fun m => .next ((s.setSp m).advance Format.fw.length)

/-- PAC (R76): push the accumulator, "same push semantics as PSH". -/
def execPac (s : State) : Result := pushWord s.acc Format.f0.length s

end Sys2Proof.Machine
end

