-- ==== Sys2Proof/Machine/Dispatch.lean ====
section
/-! DEFINITION. The dispatch: one arm per instruction, each one call of its meaning. -/

namespace Sys2Proof.Machine

def exec (i : Instr) (s : State) : Host.Outcome State Fault Refusal :=
  match i with
  | .nop => Sys2Proof.Machine.execNop s
  | .psh v => Sys2Proof.Machine.execPsh v s
  | .pop => Sys2Proof.Machine.execPop s
  | .lsp a => Sys2Proof.Machine.execLsp a s
  | .ssp a => Sys2Proof.Machine.execSsp a s
  | .jmp t => Sys2Proof.Machine.execJmp t s
  | .jnz t => Sys2Proof.Machine.execJnz t s
  | .lca a => Sys2Proof.Machine.execLca a s
  | .sca a => Sys2Proof.Machine.execSca a s
  | .cmp a1 a2 => Sys2Proof.Machine.execCmp a1 a2 s
  | .add a => Sys2Proof.Machine.execAdd a s
  | .sub a => Sys2Proof.Machine.execSub a s
  | .mul a => Sys2Proof.Machine.execMul a s
  | .div a => Sys2Proof.Machine.execDiv a s
  | .mod a => Sys2Proof.Machine.execMod a s
  | .waw => Sys2Proof.Machine.execWaw s
  | .raw => Sys2Proof.Machine.execRaw s
  | .sel id => Sys2Proof.Machine.execSel id s
  | .ldc v => Sys2Proof.Machine.execLdc v s
  | .inc => Sys2Proof.Machine.execInc s
  | .dec => Sys2Proof.Machine.execDec s
  | .not => Sys2Proof.Machine.execNot s
  | .and a => Sys2Proof.Machine.execAnd a s
  | .bor a => Sys2Proof.Machine.execBor a s
  | .xor a => Sys2Proof.Machine.execXor a s
  | .pac => Sys2Proof.Machine.execPac s
  | .cma a => Sys2Proof.Machine.execCma a s
  | .hlt => Sys2Proof.Machine.execHlt s

end Sys2Proof.Machine
end

