-- ==== Sys2Proof/Machine/Fetch.lean ====
section
/-! DEFINITION. Instruction fetch (spec/40_loop_and_control.md R62 to R64): it reads the program space only
(spec/20_memory.md R30, R48). -/

namespace Sys2Proof.Machine

/-- The program bytes from `ip` on. -/
def State.bytesAtIp (s : State) : List Byte := s.prog.drop s.ip.toNat

/-- What the decoder reads at `ip`. `noByte` is `ip >= PROG_LEN` (R63); `truncated` is `ip + 1 + n > PROG_LEN`
(R64). -/
def fetch (s : State) : Decoded := decode s.opcodeMap s.bytesAtIp

/-- A program with the bytes `bs` placed at offset `k`, filled up with zeros if it ends before `k`. -/
def placeBytes (prog bs : List Byte) (k : Nat) : List Byte :=
  (prog ++ List.replicate (k - prog.length) 0x00).take k ++ (bs ++ prog.drop (k + bs.length))

/-- Where `State.withFetchWord` places its instruction: at `ip`, or at 0 where the longest instruction would not
fit below 65536. -/
def fetchPlace (s : State) : Offset :=
  if s.ip.toNat + maxInstrLength ≤ Config.maxProgLen then s.ip else 0

end Sys2Proof.Machine
end

