-- ==== Sys2Proof/Machine/Launch.lean ====
section
/-! DEFINITION. Launch and reset (spec/00_scope.md R5, R6; spec/70_reset_and_hazards.md R119 to R122). A reset
discards every piece of state of the previous run (R120), so the state it gives is a function of the launch. -/

namespace Sys2Proof.Machine

/-- The launch that `State.reset` is the reset of: no program, no input, the spec's defaults
(notes/assumptions/1.md to 5.md). -/
def bareLaunch : Launch where
  prog        := []
  memSize     := Config.resetMemSize
  memInit     := []
  opcodeMap   := OpcodeMap.default
  eofSentinel := Config.defaultEofSentinel
  input       := []
  inputClosed := false
  hostActions := []

/-- The ranges of R5 and R6 on the parameters that stay in the state for the run. -/
def paramsAdmitted (prog : List Byte) (memSize : Nat) (om : OpcodeMap) (eof : Word) : Bool :=
  decide (prog.length ≤ Config.maxProgLen) && (decide (memSize ≤ Config.maxMemSize) &&
    (om.injective && decide (0x00FF < eof.toNat)))

/-- A launch is admitted: R6's two lengths, and, which R6 does not name, R5's ranges of map and sentinel and a
`MEM_INIT` that is a memory of `MEM_SIZE` bytes in canonical form (DEDUCED, notes/assumptions/16.md). -/
def launchAdmitted (l : Launch) : Bool :=
  paramsAdmitted l.prog l.memSize l.opcodeMap l.eofSentinel &&
    (Memory.wf l.memInit && Memory.within l.memSize l.memInit)

/-- The parameters a state runs under are those of an admitted launch. -/
def State.admitted (s : State) : Bool := paramsAdmitted s.prog s.memSize s.opcodeMap s.eofSentinel

/-- The state right after reset with the launch `l` (R119). -/
def State.ofLaunch (l : Launch) : State where
  acc         := 0x0000
  ip          := 0
  sp          := 0x0000
  device      := 0x00
  status      := .running
  fault       := none
  incidents   := []
  mem         := l.memInit
  prog        := l.prog
  memSize     := l.memSize
  opcodeMap   := l.opcodeMap
  eofSentinel := l.eofSentinel
  input       := l.input
  inputClosed := l.inputClosed
  output      := []
  hostActions := l.hostActions

/-- Reset (R119): the launch is admitted (`launchAdmitted`) or refused. -/
def launch (l : Launch) : Result :=
  if launchAdmitted l then .next (State.ofLaunch l) else .refused .launchNotAdmitted

/-- The host's part before reset (R6, R122): a program whose bytes could not be obtained gives no launch, and is
not taken for an empty program. -/
def boot (source : Option (List Byte)) (l : Launch) : Result :=
  match source with
  | some bytes => launch { l with prog := bytes }
  | none       => .refused .programNotObtained

end Sys2Proof.Machine
end

