-- ==== Sys2Proof/Machine/Step.lean ====
section
/-! DEFINITION. One step of the core (spec/40_loop_and_control.md R62), and a state with a chosen instruction at
the place the next step fetches from. -/

namespace Sys2Proof.Machine

/-- One step (R62), "enabled only when status = RUNNING"; a run that has ended has no step (R104, R120). The checks
come in the order of spec/60_exceptions.md R107. A state whose parameters are out of
range, which no admitted launch leads to, is refused (DESIGN CHOICE, notes/assumptions/7.md). -/
def step (s : State) : Host.Outcome State Fault Refusal :=
  if s.admitted then
    match s.status with
    | .halted  => .fault .runHalted
    | .faulted => .fault .runFaulted
    | .running =>
      match fetch s with
      | .noByte           => raiseFatal .ipOverrun s.ip s
      | .truncated _      => raiseFatal .ipOverrun s.ip s
      | .unknownOpcode op => execUnknown op s
      | .instr i _        => exec i s
  else .refused .launchNotAdmitted

/-- `s` with the instruction of a table word in the program at the next fetch, under the default opcode map the
table is written with, and with the run status that the fetch needs. It stands for the load of a program from
outside the machine (notes/assumptions/5.md). -/
def State.withFetchWord (s : State) (nbits w : Nat) : State :=
  { s with
    prog      := placeBytes s.prog (tableBytes nbits w) (fetchPlace s).toNat
    ip        := fetchPlace s
    opcodeMap := OpcodeMap.default
    status    := .running
    fault     := none }

end Sys2Proof.Machine
end

