-- ==== Sys2Proof/WellFormed.lean ====
section
/-! DEFINITION. Which written instructions are well formed (spec/30_encoding.md R60): "a word operand must lie in
0..65535 and a byte operand in 0..255; the number and kind of operands must match rule R56".
An `Instr` carries its operands at their widths, so each one is well formed (R58: no operand value is reserved). -/

namespace Sys2Proof

/-- An instruction as it is written: a mnemonic with numbers of any count and size. -/
structure WrittenInstr where
  mnemonic : Mnemonic
  operands : List Nat
  deriving DecidableEq, Repr

/-- The check of R60 on a written instruction. -/
def WrittenInstr.wellFormed (w : WrittenInstr) : Bool :=
  match w.mnemonic.format, w.operands with
  | .f0,  []       => true
  | .fb,  [id]     => decide (id < 256)
  | .fw,  [x]      => decide (x < 65536)
  | .fww, [x1, x2] => decide (x1 < 65536) && decide (x2 < 65536)
  | _, _           => false

/-- An instruction as it would be written. -/
def Instr.written (i : Instr) : WrittenInstr where
  mnemonic := i.mnemonic
  operands :=
    match i with
    | .psh v     => [v.toNat]
    | .lsp a     => [a.toNat]
    | .ssp a     => [a.toNat]
    | .jmp t     => [t.toNat]
    | .jnz t     => [t.toNat]
    | .lca a     => [a.toNat]
    | .sca a     => [a.toNat]
    | .cmp a1 a2 => [a1.toNat, a2.toNat]
    | .add a     => [a.toNat]
    | .sub a     => [a.toNat]
    | .mul a     => [a.toNat]
    | .div a     => [a.toNat]
    | .mod a     => [a.toNat]
    | .sel id    => [id.toNat]
    | .ldc v     => [v.toNat]
    | .and a     => [a.toNat]
    | .bor a     => [a.toNat]
    | .xor a     => [a.toNat]
    | .cma a     => [a.toNat]
    | .nop | .pop | .waw | .raw | .inc | .dec | .not | .pac | .hlt => []

/-- An instruction is well formed when its written form passes the check of R60. -/
def Instr.wellFormed (i : Instr) : Bool := i.written.wellFormed

end Sys2Proof
end

