-- ==== Sys2Proof/Machine/Assembler.lean ====
section
/-! DEFINITION. The textual assembler syntax of spec/30_encoding.md R60 (decision D22): statements separated by `;`
or newline, an optional label, a mnemonic, operands separated by `,`, decimal or `0x` numbers. It has no effect on
the hardware; an assembler "refuses anything else". Blanks and the letters of a label: notes/assumptions/8.md. -/

namespace Sys2Proof.Machine

/-! ## Text -/

/-- The upper-case spelling of each mnemonic (R60). -/
def mnemonicText : Mnemonic → List Char
  | .nop => ['N', 'O', 'P']
  | .psh => ['P', 'S', 'H']
  | .pop => ['P', 'O', 'P']
  | .lsp => ['L', 'S', 'P']
  | .ssp => ['S', 'S', 'P']
  | .jmp => ['J', 'M', 'P']
  | .jnz => ['J', 'N', 'Z']
  | .lca => ['L', 'C', 'A']
  | .sca => ['S', 'C', 'A']
  | .cmp => ['C', 'M', 'P']
  | .add => ['A', 'D', 'D']
  | .sub => ['S', 'U', 'B']
  | .mul => ['M', 'U', 'L']
  | .div => ['D', 'I', 'V']
  | .mod => ['M', 'O', 'D']
  | .waw => ['W', 'A', 'W']
  | .raw => ['R', 'A', 'W']
  | .sel => ['S', 'E', 'L']
  | .ldc => ['L', 'D', 'C']
  | .inc => ['I', 'N', 'C']
  | .dec => ['D', 'E', 'C']
  | .not => ['N', 'O', 'T']
  | .and => ['A', 'N', 'D']
  | .bor => ['B', 'O', 'R']
  | .xor => ['X', 'O', 'R']
  | .pac => ['P', 'A', 'C']
  | .cma => ['C', 'M', 'A']
  | .hlt => ['H', 'L', 'T']

/-- A blank inside a statement. -/
def isBlank (c : Char) : Bool := c == ' ' || c == '\t' || c == '\r'

/-- A statement separator. -/
def isSeparator (c : Char) : Bool := c == ';' || c == '\n'

/-- The parts of a text between the characters that `p` picks; never empty. -/
def splitParts (p : Char → Bool) : List Char → List (List Char)
  | []      => [[]]
  | c :: cs =>
    match splitParts p cs with
    | part :: parts => if p c then [] :: part :: parts else (c :: part) :: parts
    | []            => [[c]]

/-- A text without the blanks at its two ends. -/
def trimBlanks (cs : List Char) : List Char :=
  (((cs.dropWhile isBlank).reverse).dropWhile isBlank).reverse

/-- The value of a digit in base 10 or 16. -/
def digitValue (base : Nat) (c : Char) : Option Nat :=
  let v :=
    if '0' ≤ c ∧ c ≤ '9' then c.toNat - '0'.toNat
    else if 'a' ≤ c ∧ c ≤ 'f' then c.toNat - 'a'.toNat + 10
    else if 'A' ≤ c ∧ c ≤ 'F' then c.toNat - 'A'.toNat + 10
    else 16
  if v < base then some v else none

/-- The value of a row of digits after the value `acc`. -/
def digitsValue (base : Nat) : Nat → List Char → Option Nat
  | acc, []      => some acc
  | acc, c :: cs =>
    match digitValue base c with
    | some d => digitsValue base (acc * base + d) cs
    | none   => none

/-- A number: decimal digits, or `0x` and hexadecimal digits. -/
def parseNumber : List Char → Option Nat
  | '0' :: 'x' :: d :: ds => digitsValue 16 0 (d :: ds)
  | d :: ds               => digitsValue 10 0 (d :: ds)
  | []                    => none

/-- A label's first character is a letter or `_`, the others letters, digits or `_`. -/
def isLabel : List Char → Bool
  | []      => false
  | c :: cs => (c.isAlpha || c == '_') && cs.all fun d => d.isAlphanum || d == '_'

/-! ## Statements -/

/-- `operand := number | label` (R60). -/
inductive AsmOperand where
  | number (n : Nat)
  | label (name : List Char)
  deriving DecidableEq, Repr

/-- `statement := [label ":"] [mnemonic [operand ["," operand]]]` (R60). -/
structure AsmStatement where
  label : Option (List Char)
  body  : Option (Mnemonic × List AsmOperand)
  deriving DecidableEq, Repr

/-- Every element, or `none` if one is missing. -/
def allSome {α : Type} : List (Option α) → Option (List α)
  | []              => some []
  | some x :: xs    => (allSome xs).map (x :: ·)
  | none :: _       => none

/-- One operand. -/
def parseOperand (cs : List Char) : Option AsmOperand :=
  match parseNumber cs with
  | some n => some (.number n)
  | none   => if isLabel cs then some (.label cs) else none

/-- The operands after a mnemonic. -/
def parseOperands (cs : List Char) : Option (List AsmOperand) :=
  if trimBlanks cs = [] then some []
  else allSome ((splitParts (· == ',') cs).map fun part => parseOperand (trimBlanks part))

/-- The mnemonic and its operands; nothing at all is an empty statement. -/
def parseBody (cs : List Char) : Option (Option (Mnemonic × List AsmOperand)) :=
  match trimBlanks cs with
  | []   => some none
  | text =>
    match Mnemonic.all.find? fun m => mnemonicText m == text.takeWhile fun c => !isBlank c with
    | some m => (parseOperands (text.dropWhile fun c => !isBlank c)).map fun os => some (m, os)
    | none   => none

/-- One statement. -/
def parseStatement (cs : List Char) : Option AsmStatement :=
  match splitParts (· == ':') cs with
  | [body]       => (parseBody body).map fun b => { label := none, body := b }
  | [name, body] =>
    if isLabel (trimBlanks name) then
      (parseBody body).map fun b => { label := some (trimBlanks name), body := b }
    else none
  | _ => none

/-- A text's statements. -/
def parseText (cs : List Char) : Option (List AsmStatement) :=
  allSome ((splitParts isSeparator cs).map parseStatement)

/-! ## Assembly -/

/-- The length in bytes of what a statement assembles to. -/
def statementLength (st : AsmStatement) : Nat :=
  match st.body with
  | some (m, _) => m.format.length
  | none        => 0

/-- Each label with "the program offset of its statement" (R60), from the offset `at` on. -/
def labelOffsets (offset : Nat) : List AsmStatement → List (List Char × Nat)
  | []       => []
  | st :: ss =>
    let rest := labelOffsets (offset + statementLength st) ss
    match st.label with
    | some name => (name, offset) :: rest
    | none      => rest

/-- An operand's number, by the table of labels. A label may stand for an operand of any kind (`v`, `a`, `t`, `id`),
its offset then checked like a number. DESIGN CHOICE (notes/assumptions/8.md): R60 lets an operand be a label and asks
that its kind match R56, and does not say which kinds a label has. -/
def operandValue (labels : List (List Char × Nat)) : AsmOperand → Option Nat
  | .number n   => some n
  | .label name => (labels.find? fun l => l.1 == name).map (·.2)

/-- The instruction of a written instruction that passes the check of R60. -/
def instrOfWritten (w : WrittenInstr) : Option Instr :=
  if w.wellFormed then
    (decodeOperands w.mnemonic
      (match w.mnemonic.format with
        | .fb => w.operands.map fun n => BitVec.ofNat 8 n
        | _   => w.operands.flatMap fun n => wordBytes (BitVec.ofNat 16 n))).map (·.1)
  else none

/-- The bytes of one statement. -/
def assembleStatement (om : OpcodeMap) (labels : List (List Char × Nat)) (st : AsmStatement) : Option (List Byte) :=
  match st.body with
  | none         => some []
  | some (m, os) =>
    match allSome (os.map (operandValue labels)) with
    | some ns => (instrOfWritten { mnemonic := m, operands := ns }).map (encode om)
    | none    => none

/-- The bytes of a list of statements; a label that stands twice is refused. -/
def assembleStatements (om : OpcodeMap) (ss : List AsmStatement) : Option (List Byte) :=
  let labels := labelOffsets 0 ss
  if (labels.map (·.1)).Nodup then
    (allSome (ss.map (assembleStatement om labels))).map List.flatten
  else none

/-- The bytes of a text, or `none` where the assembler refuses it (R60). -/
def assemble (om : OpcodeMap) (text : List Char) : Option (List Byte) :=
  match parseText text with
  | some ss => assembleStatements om ss
  | none    => none

end Sys2Proof.Machine
end

