-- ==== Sys2Proof/Machine/Dump.lean ====
section
/-! DEFINITION. The state dump (spec/10_state.md R28) with the codes of R19, spec/60_exceptions.md R102 and R105.
No instruction reads it (R18). -/

namespace Sys2Proof.Machine

/-- The 3-bit code of the run status: 0 RUNNING, 1 HALTED, 2 FAULTED (R19). -/
def RunStatus.code : RunStatus → BitVec 3
  | .running => 0
  | .halted  => 1
  | .faulted => 2

/-- The code of a fatal fault (R102). -/
def FatalKind.code : FatalKind → Nat
  | .ipOverrun     => 1
  | .outOfBounds   => 2
  | .stackOverflow => 3
  | .divideByZero  => 4

/-- The code the fault record holds; 0 while it is empty (R102). -/
def faultCode : Option FaultRecord → Nat
  | none   => 0
  | some r => r.kind.code

/-- The information value of the fault record; there is none while it is empty (R102). -/
def faultInfo : Option FaultRecord → Option Offset
  | none   => none
  | some r => some r.info

/-- The code of an incident (R105). -/
def IncidentKind.code : IncidentKind → Nat
  | .unknownOpcode      => 1
  | .unknownDeviceWrite => 2
  | .unknownDeviceRead  => 3

/-- One record of the dumped incident log: `(code, ip, value)` (R21). -/
structure IncidentEntry where
  code  : Nat
  ip    : Offset
  value : Byte
  deriving DecidableEq, Repr

/-- What the state-dump output presents (R28). -/
structure StateDump where
  ip        : Offset
  sp        : Word
  acc       : Word
  device    : Byte
  status    : BitVec 3
  faultCode : Nat
  faultInfo : Option Offset
  incidents : List IncidentEntry
  deriving DecidableEq, Repr

/-- A run has ended exactly when its status is HALTED or FAULTED (spec/70_reset_and_hazards.md R123). -/
def State.ended (s : State) : Bool := s.status != .running

/-- The record of an incident as the dump presents it. -/
def incidentEntry (x : Incident) : IncidentEntry := { code := x.kind.code, ip := x.ip, value := x.value }

/-- The state-dump output, readable after the run ends (R11, R28). -/
def dumpState (s : State) : Option StateDump :=
  if s.ended then
    some { ip := s.ip, sp := s.sp, acc := s.acc, device := s.device, status := s.status.code,
           faultCode := faultCode s.fault, faultInfo := faultInfo s.fault,
           incidents := s.incidents.map incidentEntry }
  else none

end Sys2Proof.Machine
end

