-- ==== Sys2Proof/Safety.lean ====
section
/-! DEFINITION. The terms claims are stated in: the invariant of a state, what a run reaches, what a safe run is, what
an instruction may store to, and the table of fatal causes (spec/60_exceptions.md R102, spec/20_memory.md R40). -/

namespace Sys2Proof.Machine

/-- The invariant of the machine. -/
structure State.Inv (s : State) : Prop where
  /-- The launch parameters are in their ranges (spec/00_scope.md R5, R6). -/
  admitted     : s.admitted = true
  /-- The memory is in canonical form. -/
  memCanonical : Memory.wf s.mem = true
  /-- Every listed address is below `MEM_SIZE` (spec/20_memory.md R31). -/
  memWithin    : Memory.within s.memSize s.mem = true
  /-- `ip` holds a number from 0 to 65536 (spec/10_state.md R14). -/
  ipInRange    : s.ip.toNat ≤ 65536
  /-- The fault record is empty while the status is RUNNING or HALTED, and written when it is FAULTED (R20). -/
  faultRecord  : s.fault.isSome = true ↔ s.status = .faulted

/-- `t` is reached from `s` by steps. -/
inductive Reaches (s : State) : State → Prop where
  | here : Reaches s s
  | next {t u : State} : Reaches s t → step t = .next u → Reaches s u

/-- A safe run from `s`: no state it reaches has taken a fatal fault. A run that waits or never ends may be safe. -/
def SafeRun (s : State) : Prop := ∀ t, Reaches s t → t.status ≠ .faulted

/-- A clean end: the run ended by HLT (spec/70_reset_and_hazards.md R123). -/
def State.endedCleanly (s : State) : Prop := s.status = .halted

/-- Every byte of data memory reads in `t` as in `s`. -/
def SameMemory (s t : State) : Prop := ∀ b, t.readByte b = s.readByte b

/-- Every byte of data memory outside the word at `a` reads in `t` as in `s`. -/
def SameMemoryOutside (a : Nat) (s t : State) : Prop := ∀ b, b ≠ a → b ≠ a + 1 → t.readByte b = s.readByte b

/-- The word at `a` holds `v`: low byte at `a`, high byte at `a + 1` (spec/20_memory.md R33). -/
def HoldsWord (t : State) (a : Nat) (v : Word) : Prop :=
  t.readByte a = v.extractLsb' 0 8 ∧ t.readByte (a + 1) = v.extractLsb' 8 8

/-- Status, fault record and incident log are as before. -/
def SameRun (s t : State) : Prop := t.status = s.status ∧ t.fault = s.fault ∧ t.incidents = s.incidents

/-- The launch parameters are as before: the program space is read-only for the run (spec/20_memory.md R30). -/
def SameLaunch (s t : State) : Prop :=
  t.prog = s.prog ∧ t.memSize = s.memSize ∧ t.opcodeMap = s.opcodeMap ∧ t.eofSentinel = s.eofSentinel

/-- The host's console streams and coming actions are as before. -/
def SameConsole (s t : State) : Prop :=
  t.input = s.input ∧ t.inputClosed = s.inputClosed ∧ t.output = s.output ∧ t.hostActions = s.hostActions

/-- A console read that waits (spec/44_device_io.md R97): the console is selected, no byte is there, and the input
is not closed. -/
def State.Waiting (s : State) : Prop := s.device = 0 ∧ s.input = [] ∧ s.inputClosed = false

/-- The word an instruction stores to, as its meaning computes it (the column "writes" of R40). -/
def storeAddress (i : Instr) (s : State) : Option Nat :=
  match i with
  | .psh _ | .pac => some (s.sp.toNat + 1)
  | .lsp a | .lca a => some a.toNat
  | .nop | .pop | .ssp _ | .jmp _ | .jnz _ | .sca _ | .cmp _ _ | .add _ | .sub _ | .mul _ | .div _ | .mod _
  | .waw | .raw | .sel _ | .ldc _ | .inc | .dec | .not | .and _ | .bor _ | .xor _ | .cma _ | .hlt => none

/-- OUT_OF_BOUNDS at `a` when the word there does not fit (R39, R102). -/
def outOfBoundsAt (s : State) (a : Word) : Option (FatalKind × Nat) :=
  if a.toNat + 1 < s.memSize then none else some (.outOfBounds, a.toNat)

/-- The fatal fault an instruction raises in a state, with its `info`, by the table of R102 and the order of
R107; `none` if it raises none. -/
def fatalCause (i : Instr) (s : State) : Option (FatalKind × Nat) :=
  match i with
  | .psh _ | .pac =>
    if s.sp.toNat + 2 < s.memSize then none else some (.stackOverflow, s.sp.toNat + 1)
  | .pop => outOfBoundsAt s s.sp
  | .lsp a | .ssp a | .lca a | .sca a | .cma a | .add a | .sub a | .mul a | .and a | .bor a | .xor a =>
    outOfBoundsAt s a
  | .cmp a1 a2 => (outOfBoundsAt s a1).orElse fun _ => outOfBoundsAt s a2
  | .div a | .mod a =>
    (outOfBoundsAt s a).orElse fun _ => if s.readWord a.toNat = 0 then some (.divideByZero, a.toNat) else none
  | .nop | .jmp _ | .jnz _ | .waw | .raw | .sel _ | .ldc _ | .inc | .dec | .not | .hlt => none

end Sys2Proof.Machine

namespace Sys2Proof

/-- The instructions that write `acc` (spec/10_state.md R13). -/
def Instr.writesAcc : Instr → Bool
  | .pop | .sca _ | .cmp _ _ | .add _ | .sub _ | .mul _ | .div _ | .mod _ | .raw | .ldc _
  | .inc | .dec | .not | .and _ | .bor _ | .xor _ | .cma _ => true
  | .nop | .psh _ | .lsp _ | .ssp _ | .jmp _ | .jnz _ | .lca _ | .waw | .sel _ | .pac | .hlt => false

/-- The instructions that write `sp` (the summary table of spec/10_state.md). -/
def Instr.writesSp : Instr → Bool
  | .psh _ | .pop | .ssp _ | .pac => true
  | .nop | .lsp _ | .jmp _ | .jnz _ | .lca _ | .sca _ | .cmp _ _ | .add _ | .sub _ | .mul _ | .div _ | .mod _
  | .waw | .raw | .sel _ | .ldc _ | .inc | .dec | .not | .and _ | .bor _ | .xor _ | .cma _ | .hlt => false

/-- The instructions that set `ip` explicitly when they do not fall through (R65). -/
def Instr.isJump : Instr → Bool
  | .jmp _ | .jnz _ => true
  | .nop | .psh _ | .pop | .lsp _ | .ssp _ | .lca _ | .sca _ | .cmp _ _ | .add _ | .sub _ | .mul _ | .div _ | .mod _
  | .waw | .raw | .sel _ | .ldc _ | .inc | .dec | .not | .and _ | .bor _ | .xor _ | .pac | .cma _ | .hlt => false

end Sys2Proof
end

