-- ==== Sys2Proof/Certificates/Slice0/Obligations.lean ====
section
/-! DEFINITION. The statements for the provers, from the spec's numbered rules. Each docstring names the rule it
formalises, and says where it rests on a decision of the spec or a choice of the model. -/

open Sys2Proof Sys2Proof.Machine

/-- R67: NOP. -/
def Obligations.NopAdvancesIpOnly : Prop :=
  ∀ (om : OpcodeMap) (s : State),
    encode om .nop = [om.nop] ∧ exec .nop s = .next { s with ip := s.ip + 1 }

/-- R68: JMP, for every target; the target past the program faults at the next step. -/
def Obligations.JmpSetsIpWithoutCheck : Prop :=
  ∀ (om : OpcodeMap) (t : Word) (s : State),
    encode om (.jmp t) = [om.jmp, t.extractLsb' 0 8, t.extractLsb' 8 8] ∧
    exec (.jmp t) s = .next { s with ip := t.setWidth 17 } ∧
    (s.admitted = true → s.status = .running → s.prog.length ≤ t.toNat →
      step { s with ip := t.setWidth 17 } =
        .next { s with ip := t.setWidth 17, status := .faulted, fault := some ⟨.ipOverrun, t.setWidth 17⟩ })

/-- R69: JNZ, taken and not taken; a taken jump past the program faults at the next step. -/
def Obligations.JnzJumpsExactlyIfAccNonzero : Prop :=
  ∀ (om : OpcodeMap) (t : Word) (s : State),
    encode om (.jnz t) = [om.jnz, t.extractLsb' 0 8, t.extractLsb' 8 8] ∧
    (s.acc ≠ 0 → exec (.jnz t) s = .next { s with ip := t.setWidth 17 }) ∧
    (s.acc = 0 → exec (.jnz t) s = .next { s with ip := s.ip + 3 }) ∧
    (s.admitted = true → s.status = .running → s.prog.length ≤ t.toNat →
      step { s with ip := t.setWidth 17 } =
        .next { s with ip := t.setWidth 17, status := .faulted, fault := some ⟨.ipOverrun, t.setWidth 17⟩ })

/-- R70: HLT; after it no further step is enabled. -/
def Obligations.HltHaltsAndAdvancesIp : Prop :=
  ∀ (om : OpcodeMap) (s : State),
    encode om .hlt = [om.hlt] ∧ exec .hlt s = .next { s with status := .halted, ip := s.ip + 1 } ∧
    ∀ t, step { s with status := .halted, ip := s.ip + 1 } ≠ .next t

/-- PSH (spec/41_stack.md R72), whose overflow condition and unchanged state are the spec's decisions D6 and D8. -/
def Obligations.PshPushesImmediateWord : Prop :=
  ∀ (om : OpcodeMap) (v : Word) (s : State),
    encode om (.psh v) = [om.psh, v.extractLsb' 0 8, v.extractLsb' 8 8] ∧
    (Memory.wf s.mem = true → s.memSize ≤ 65536 → s.sp.toNat + 2 < s.memSize →
      ∃ t, exec (.psh v) s = .next t ∧ t.sp.toNat = s.sp.toNat + 1 ∧ t.ip = s.ip + 3 ∧
        HoldsWord t (s.sp.toNat + 1) v ∧ SameMemoryOutside (s.sp.toNat + 1) s t ∧
        t.acc = s.acc ∧ t.device = s.device ∧ SameRun s t ∧ SameLaunch s t ∧ SameConsole s t) ∧
    (¬ s.sp.toNat + 2 < s.memSize →
      exec (.psh v) s =
        .next { s with status := .faulted, fault := some ⟨.stackOverflow, BitVec.ofNat 17 (s.sp.toNat + 1)⟩ })

/-- POP (spec/41_stack.md R73); the wrap of `sp`, the check and the unchanged state are the spec's decisions D5, D7,
D8. -/
def Obligations.PopReadsWordThenDecrementsSp : Prop :=
  ∀ (om : OpcodeMap) (s : State),
    encode om .pop = [om.pop] ∧
    (s.sp.toNat + 1 < s.memSize →
      ∃ r : Word, exec .pop s = .next { s with acc := s.readWord s.sp.toNat, sp := r, ip := s.ip + 1 } ∧
        r.toNat = (s.sp.toNat + 65535) % 65536) ∧
    (¬ s.sp.toNat + 1 < s.memSize →
      exec .pop s = .next { s with status := .faulted, fault := some ⟨.outOfBounds, s.sp.setWidth 17⟩ })

/-- R74: LSP. -/
def Obligations.LspStoresSp : Prop :=
  ∀ (om : OpcodeMap) (a : Word) (s : State),
    encode om (.lsp a) = [om.lsp, a.extractLsb' 0 8, a.extractLsb' 8 8] ∧
    (Memory.wf s.mem = true → a.toNat + 1 < s.memSize →
      ∃ t, exec (.lsp a) s = .next t ∧ HoldsWord t a.toNat s.sp ∧ SameMemoryOutside a.toNat s t ∧
        t.acc = s.acc ∧ t.sp = s.sp ∧ t.device = s.device ∧ t.ip = s.ip + 3 ∧
        SameRun s t ∧ SameLaunch s t ∧ SameConsole s t) ∧
    (¬ a.toNat + 1 < s.memSize →
      exec (.lsp a) s = .next { s with status := .faulted, fault := some ⟨.outOfBounds, a.setWidth 17⟩ })

/-- R75: SSP. -/
def Obligations.SspLoadsSpUnchecked : Prop :=
  ∀ (om : OpcodeMap) (a : Word) (s : State),
    encode om (.ssp a) = [om.ssp, a.extractLsb' 0 8, a.extractLsb' 8 8] ∧
    (a.toNat + 1 < s.memSize →
      exec (.ssp a) s = .next { s with sp := s.readWord a.toNat, ip := s.ip + 3 }) ∧
    (¬ a.toNat + 1 < s.memSize →
      exec (.ssp a) s = .next { s with status := .faulted, fault := some ⟨.outOfBounds, a.setWidth 17⟩ })

/-- PAC (spec/41_stack.md R76), "same push semantics as PSH" (decisions D6, D8). -/
def Obligations.PacPushesAccumulator : Prop :=
  ∀ (om : OpcodeMap) (s : State),
    encode om .pac = [om.pac] ∧
    (Memory.wf s.mem = true → s.memSize ≤ 65536 → s.sp.toNat + 2 < s.memSize →
      ∃ t, exec .pac s = .next t ∧ t.sp.toNat = s.sp.toNat + 1 ∧ t.ip = s.ip + 1 ∧
        HoldsWord t (s.sp.toNat + 1) s.acc ∧ SameMemoryOutside (s.sp.toNat + 1) s t ∧
        t.acc = s.acc ∧ t.device = s.device ∧ SameRun s t ∧ SameLaunch s t ∧ SameConsole s t) ∧
    (¬ s.sp.toNat + 2 < s.memSize →
      exec .pac s =
        .next { s with status := .faulted, fault := some ⟨.stackOverflow, BitVec.ofNat 17 (s.sp.toNat + 1)⟩ })

/-- R78: LCA. -/
def Obligations.LcaStoresAcc : Prop :=
  ∀ (om : OpcodeMap) (a : Word) (s : State),
    encode om (.lca a) = [om.lca, a.extractLsb' 0 8, a.extractLsb' 8 8] ∧
    (Memory.wf s.mem = true → a.toNat + 1 < s.memSize →
      ∃ t, exec (.lca a) s = .next t ∧ HoldsWord t a.toNat s.acc ∧ SameMemoryOutside a.toNat s t ∧
        t.acc = s.acc ∧ t.sp = s.sp ∧ t.device = s.device ∧ t.ip = s.ip + 3 ∧
        SameRun s t ∧ SameLaunch s t ∧ SameConsole s t) ∧
    (¬ a.toNat + 1 < s.memSize →
      exec (.lca a) s = .next { s with status := .faulted, fault := some ⟨.outOfBounds, a.setWidth 17⟩ })

/-- R79: SCA. -/
def Obligations.ScaLoadsAcc : Prop :=
  ∀ (om : OpcodeMap) (a : Word) (s : State),
    encode om (.sca a) = [om.sca, a.extractLsb' 0 8, a.extractLsb' 8 8] ∧
    (a.toNat + 1 < s.memSize →
      exec (.sca a) s = .next { s with acc := s.readWord a.toNat, ip := s.ip + 3 }) ∧
    (¬ a.toNat + 1 < s.memSize →
      exec (.sca a) s = .next { s with status := .faulted, fault := some ⟨.outOfBounds, a.setWidth 17⟩ })

/-- CMP (spec/42_acc_memory.md R80); that it compares the memory words and checks `a1` first are the spec's decisions
D20, D21. -/
def Obligations.CmpComparesMemoryWordsInOrder : Prop :=
  ∀ (om : OpcodeMap) (a1 a2 : Word) (s : State),
    encode om (.cmp a1 a2) =
      [om.cmp, a1.extractLsb' 0 8, a1.extractLsb' 8 8, a2.extractLsb' 0 8, a2.extractLsb' 8 8] ∧
    (a1.toNat + 1 < s.memSize → a2.toNat + 1 < s.memSize →
      (s.readWord a1.toNat = s.readWord a2.toNat →
        exec (.cmp a1 a2) s = .next { s with acc := 0xFFFF, ip := s.ip + 5 }) ∧
      (s.readWord a1.toNat ≠ s.readWord a2.toNat →
        exec (.cmp a1 a2) s = .next { s with acc := 0x0000, ip := s.ip + 5 })) ∧
    (¬ a1.toNat + 1 < s.memSize →
      exec (.cmp a1 a2) s = .next { s with status := .faulted, fault := some ⟨.outOfBounds, a1.setWidth 17⟩ }) ∧
    (a1.toNat + 1 < s.memSize → ¬ a2.toNat + 1 < s.memSize →
      exec (.cmp a1 a2) s = .next { s with status := .faulted, fault := some ⟨.outOfBounds, a2.setWidth 17⟩ })

/-- R81: LDC. -/
def Obligations.LdcLoadsImmediate : Prop :=
  ∀ (om : OpcodeMap) (v : Word) (s : State),
    encode om (.ldc v) = [om.ldc, v.extractLsb' 0 8, v.extractLsb' 8 8] ∧
    exec (.ldc v) s = .next { s with acc := v, ip := s.ip + 3 }

/-- R82: CMA. -/
def Obligations.CmaComparesWordWithAcc : Prop :=
  ∀ (om : OpcodeMap) (a : Word) (s : State),
    encode om (.cma a) = [om.cma, a.extractLsb' 0 8, a.extractLsb' 8 8] ∧
    (a.toNat + 1 < s.memSize →
      (s.readWord a.toNat = s.acc → exec (.cma a) s = .next { s with acc := 0xFFFF, ip := s.ip + 3 }) ∧
      (s.readWord a.toNat ≠ s.acc → exec (.cma a) s = .next { s with acc := 0x0000, ip := s.ip + 3 })) ∧
    (¬ a.toNat + 1 < s.memSize →
      exec (.cma a) s = .next { s with status := .faulted, fault := some ⟨.outOfBounds, a.setWidth 17⟩ })

/-- R83: ADD. -/
def Obligations.AddAddsMemoryWordModulo : Prop :=
  ∀ (om : OpcodeMap) (a : Word) (s : State),
    encode om (.add a) = [om.add, a.extractLsb' 0 8, a.extractLsb' 8 8] ∧
    (a.toNat + 1 < s.memSize →
      ∃ r : Word, exec (.add a) s = .next { s with acc := r, ip := s.ip + 3 } ∧
        r.toNat = (s.acc.toNat + (s.readWord a.toNat).toNat) % 65536) ∧
    (¬ a.toNat + 1 < s.memSize →
      exec (.add a) s = .next { s with status := .faulted, fault := some ⟨.outOfBounds, a.setWidth 17⟩ })

/-- R84: SUB. -/
def Obligations.SubSubtractsMemoryWordModulo : Prop :=
  ∀ (om : OpcodeMap) (a : Word) (s : State),
    encode om (.sub a) = [om.sub, a.extractLsb' 0 8, a.extractLsb' 8 8] ∧
    (a.toNat + 1 < s.memSize →
      ∃ r : Word, exec (.sub a) s = .next { s with acc := r, ip := s.ip + 3 } ∧
        r.toNat = (s.acc.toNat + 65536 - (s.readWord a.toNat).toNat) % 65536) ∧
    (¬ a.toNat + 1 < s.memSize →
      exec (.sub a) s = .next { s with status := .faulted, fault := some ⟨.outOfBounds, a.setWidth 17⟩ })

/-- R85: MUL. -/
def Obligations.MulKeepsLowProductWord : Prop :=
  ∀ (om : OpcodeMap) (a : Word) (s : State),
    encode om (.mul a) = [om.mul, a.extractLsb' 0 8, a.extractLsb' 8 8] ∧
    (a.toNat + 1 < s.memSize →
      ∃ r : Word, exec (.mul a) s = .next { s with acc := r, ip := s.ip + 3 } ∧
        r.toNat = (s.acc.toNat * (s.readWord a.toNat).toNat) % 65536) ∧
    (¬ a.toNat + 1 < s.memSize →
      exec (.mul a) s = .next { s with status := .faulted, fault := some ⟨.outOfBounds, a.setWidth 17⟩ })

/-- DIV (spec/43_alu.md); the zero divisor's fault is the spec's decision D11, the order of the checks D21. -/
def Obligations.DivDividesUnsignedOrFaults : Prop :=
  ∀ (om : OpcodeMap) (a : Word) (s : State),
    encode om (.div a) = [om.div, a.extractLsb' 0 8, a.extractLsb' 8 8] ∧
    (a.toNat + 1 < s.memSize → s.readWord a.toNat ≠ 0 →
      ∃ r : Word, exec (.div a) s = .next { s with acc := r, ip := s.ip + 3 } ∧
        r.toNat = s.acc.toNat / (s.readWord a.toNat).toNat) ∧
    (a.toNat + 1 < s.memSize → s.readWord a.toNat = 0 →
      exec (.div a) s = .next { s with status := .faulted, fault := some ⟨.divideByZero, a.setWidth 17⟩ }) ∧
    (¬ a.toNat + 1 < s.memSize →
      exec (.div a) s = .next { s with status := .faulted, fault := some ⟨.outOfBounds, a.setWidth 17⟩ })

/-- MOD (spec/43_alu.md); the zero divisor's fault is the spec's decision D11, the order of the checks D21. -/
def Obligations.ModTakesUnsignedRemainderOrFaults : Prop :=
  ∀ (om : OpcodeMap) (a : Word) (s : State),
    encode om (.mod a) = [om.mod, a.extractLsb' 0 8, a.extractLsb' 8 8] ∧
    (a.toNat + 1 < s.memSize → s.readWord a.toNat ≠ 0 →
      ∃ r : Word, exec (.mod a) s = .next { s with acc := r, ip := s.ip + 3 } ∧
        r.toNat = s.acc.toNat % (s.readWord a.toNat).toNat ∧ r.toNat < (s.readWord a.toNat).toNat) ∧
    (a.toNat + 1 < s.memSize → s.readWord a.toNat = 0 →
      exec (.mod a) s = .next { s with status := .faulted, fault := some ⟨.divideByZero, a.setWidth 17⟩ }) ∧
    (¬ a.toNat + 1 < s.memSize →
      exec (.mod a) s = .next { s with status := .faulted, fault := some ⟨.outOfBounds, a.setWidth 17⟩ })

/-- R88: INC. -/
def Obligations.IncAddsOneModulo : Prop :=
  ∀ (om : OpcodeMap) (s : State),
    encode om .inc = [om.inc] ∧
    ∃ r : Word, exec .inc s = .next { s with acc := r, ip := s.ip + 1 } ∧ r.toNat = (s.acc.toNat + 1) % 65536

/-- R89: DEC. -/
def Obligations.DecSubtractsOneModulo : Prop :=
  ∀ (om : OpcodeMap) (s : State),
    encode om .dec = [om.dec] ∧
    ∃ r : Word, exec .dec s = .next { s with acc := r, ip := s.ip + 1 } ∧ r.toNat = (s.acc.toNat + 65535) % 65536

/-- R90: NOT. -/
def Obligations.NotComplementsEveryBit : Prop :=
  ∀ (om : OpcodeMap) (s : State),
    encode om .not = [om.not] ∧
    ∃ r : Word, exec .not s = .next { s with acc := r, ip := s.ip + 1 } ∧ r.toNat = 65535 - s.acc.toNat ∧
      ∀ k, k < 16 → r.getLsbD k = !s.acc.getLsbD k

/-- R91: AND. -/
def Obligations.AndIsBitwise : Prop :=
  ∀ (om : OpcodeMap) (a : Word) (s : State),
    encode om (.and a) = [om.and, a.extractLsb' 0 8, a.extractLsb' 8 8] ∧
    (a.toNat + 1 < s.memSize →
      ∃ r : Word, exec (.and a) s = .next { s with acc := r, ip := s.ip + 3 } ∧
        ∀ k, k < 16 → r.getLsbD k = (s.acc.getLsbD k && (s.readWord a.toNat).getLsbD k)) ∧
    (¬ a.toNat + 1 < s.memSize →
      exec (.and a) s = .next { s with status := .faulted, fault := some ⟨.outOfBounds, a.setWidth 17⟩ })

/-- R92: BOR. -/
def Obligations.BorIsBitwise : Prop :=
  ∀ (om : OpcodeMap) (a : Word) (s : State),
    encode om (.bor a) = [om.bor, a.extractLsb' 0 8, a.extractLsb' 8 8] ∧
    (a.toNat + 1 < s.memSize →
      ∃ r : Word, exec (.bor a) s = .next { s with acc := r, ip := s.ip + 3 } ∧
        ∀ k, k < 16 → r.getLsbD k = (s.acc.getLsbD k || (s.readWord a.toNat).getLsbD k)) ∧
    (¬ a.toNat + 1 < s.memSize →
      exec (.bor a) s = .next { s with status := .faulted, fault := some ⟨.outOfBounds, a.setWidth 17⟩ })

/-- R93: XOR. -/
def Obligations.XorIsBitwise : Prop :=
  ∀ (om : OpcodeMap) (a : Word) (s : State),
    encode om (.xor a) = [om.xor, a.extractLsb' 0 8, a.extractLsb' 8 8] ∧
    (a.toNat + 1 < s.memSize →
      ∃ r : Word, exec (.xor a) s = .next { s with acc := r, ip := s.ip + 3 } ∧
        ∀ k, k < 16 → r.getLsbD k = (s.acc.getLsbD k ^^ (s.readWord a.toNat).getLsbD k)) ∧
    (¬ a.toNat + 1 < s.memSize →
      exec (.xor a) s = .next { s with status := .faulted, fault := some ⟨.outOfBounds, a.setWidth 17⟩ })

/-- R99: WAW on the console and on an unknown device. -/
def Obligations.WawWritesSelectedDevice : Prop :=
  ∀ (om : OpcodeMap) (s : State),
    encode om .waw = [om.waw] ∧
    (s.device = 0 →
      exec .waw s = .next { s with output := s.output ++ [s.acc.extractLsb' 0 8], ip := s.ip + 1 }) ∧
    (s.device ≠ 0 →
      exec .waw s = .next { s with
        incidents := s.incidents ++ [⟨.unknownDeviceWrite, s.ip, s.device⟩], ip := s.ip + 1 })

/-- RAW (spec/44_device_io.md R100) in its four cases. The wait is a step that leaves the core as it is and may move
only the host's streams: the model's choice (notes/assumptions/6.md). -/
def Obligations.RawReadsSelectedDeviceOrWaits : Prop :=
  ∀ (om : OpcodeMap) (s : State),
    encode om .raw = [om.raw] ∧
    (∀ c cs, s.device = 0 → s.input = c :: cs →
      exec .raw s = .next { s with acc := c.setWidth 16, input := cs, ip := s.ip + 1 }) ∧
    (s.device = 0 → s.input = [] → s.inputClosed = true →
      exec .raw s = .next { s with acc := s.eofSentinel, ip := s.ip + 1 }) ∧
    (s.device ≠ 0 →
      exec .raw s = .next { s with acc := 0x0000, ip := s.ip + 1,
                                   incidents := s.incidents ++ [⟨.unknownDeviceRead, s.ip, s.device⟩] }) ∧
    (s.Waiting → ∃ cs closed acts,
      exec .raw s = .next { s with input := cs, inputClosed := closed, hostActions := acts })

/-- The console read's wait (decisions D12, D13). The host agent in the state is the model's own
(notes/assumptions/6.md). -/
def Obligations.WaitingReadHoldsUntilHostActs : Prop :=
  ∀ s : State, s.Waiting →
    (s.hostActions = [] → exec .raw s = .next s) ∧
    (∀ c acts, s.hostActions = .supply c :: acts →
      ∃ t, exec .raw s = .next t ∧
        exec .raw t = .next { s with acc := c.setWidth 16, hostActions := acts, ip := s.ip + 1 }) ∧
    (∀ acts, s.hostActions = .close :: acts →
      ∃ t, exec .raw s = .next t ∧
        exec .raw t = .next { s with acc := s.eofSentinel, inputClosed := true, hostActions := acts, ip := s.ip + 1 })

/-- R101: SEL. -/
def Obligations.SelSelectsAnyDevice : Prop :=
  ∀ (om : OpcodeMap) (id : Byte) (s : State),
    encode om (.sel id) = [om.sel, id] ∧
    exec (.sel id) s = .next { s with device := id, ip := s.ip + 2 }

/-- R71: an unrecognized opcode byte. -/
def Obligations.UnknownByteIsReportedAndSkipped : Prop :=
  ∀ (s : State) (op : Byte) (rest : List Byte), s.admitted = true → s.status = .running →
    s.prog.drop s.ip.toNat = op :: rest → (∀ m, s.opcodeMap.byteOf m ≠ op) →
    step s = .next { s with incidents := s.incidents ++ [⟨.unknownOpcode, s.ip, op⟩], ip := s.ip + 1 }

/-- The step (R62): nothing is added around `exec`, whose meanings move `ip` themselves. -/
def Obligations.StepRunsDecodedInstruction : Prop :=
  ∀ (s : State) (i : Instr) (rest : List Byte), s.admitted = true → s.status = .running → i.wellFormed = true →
    (decode s.opcodeMap (s.prog.drop s.ip.toNat) = .instr i rest → step s = exec i s) ∧
    (s.prog.drop s.ip.toNat = encode s.opcodeMap i ++ rest → step s = exec i s)

/-- The fetch and operand checks (spec/40_loop_and_control.md R63, R64), placed by the spec's decisions D9 and D10. -/
def Obligations.ProgramOverrunFaultsBeforeAnyEffect : Prop :=
  ∀ s : State, s.admitted = true → s.status = .running →
    (s.prog.length ≤ s.ip.toNat →
      step s = .next { s with status := .faulted, fault := some ⟨.ipOverrun, s.ip⟩ }) ∧
    (∀ m : Mnemonic, s.prog[s.ip.toNat]? = some (s.opcodeMap.byteOf m) →
      s.prog.length < s.ip.toNat + 1 + m.format.operandSize →
      step s = .next { s with status := .faulted, fault := some ⟨.ipOverrun, s.ip⟩ })

/-- No step is enabled after the end (decision D17); that the model answers a stop is its own form
(notes/assumptions/7.md). -/
def Obligations.EndedRunTakesNoStep : Prop :=
  ∀ s : State, s.admitted = true →
    (s.status = .halted → step s = .fault .runHalted) ∧ (s.status = .faulted → step s = .fault .runFaulted)

/-- Reset (spec/70_reset_and_hazards.md R119). "zero is the spec's own choice" for acc, sp and device (D2); the bare
launch is the model's (notes/assumptions/1.md to 5.md). -/
def Obligations.LaunchSetsResetState : Prop :=
  (∀ l : Launch, launchAdmitted l = true → ∃ t, launch l = .next t ∧
      t.ip = 0 ∧ t.acc = 0x0000 ∧ t.sp = 0x0000 ∧ t.device = 0x00 ∧ t.status = .running ∧ t.fault = none ∧
      t.incidents = [] ∧ t.output = [] ∧ (∀ a, a < l.memSize → t.readByte a = Memory.readByte l.memInit a) ∧
      t.prog = l.prog ∧ t.memSize = l.memSize ∧ t.opcodeMap = l.opcodeMap ∧ t.eofSentinel = l.eofSentinel ∧
      t.input = l.input ∧ t.inputClosed = l.inputClosed) ∧
    launch bareLaunch = .next State.reset

/-- Admission: R6 refuses the two lengths (decisions D4, D19) and a program that could not be obtained. The model's
choice, not R6's: that a launch is also refused for a map that is not injective or a sentinel of at most 0x00FF, the
ranges of R5 (DEDUCED, notes/assumptions/16.md), and that `step` refuses a state with parameters out of range
(DESIGN CHOICE, notes/assumptions/7.md). -/
def Obligations.LaunchOutOfRangeIsRefused : Prop :=
  (∀ l : Launch, (65536 < l.prog.length ∨ 65536 < l.memSize ∨ l.opcodeMap.injective = false ∨
        l.eofSentinel.toNat ≤ 0x00FF) →
      launch l = .refused .launchNotAdmitted) ∧
    (∀ s : State, (65536 < s.prog.length ∨ 65536 < s.memSize ∨ s.opcodeMap.injective = false ∨
        s.eofSentinel.toNat ≤ 0x00FF) →
      step s = .refused .launchNotAdmitted) ∧
    (∀ l : Launch, boot none l = .refused .programNotObtained)

/-- MEM_INIT is a free input of the launch (decision D3): the memory list can hold any contents. -/
def Obligations.EveryInitialMemoryHasALaunch : Prop :=
  ∀ (f : Nat → Byte) (n : Nat), n ≤ 65536 → ∃ l : Launch, launchAdmitted l = true ∧ l.memSize = n ∧
    ∀ a, a < n → (State.ofLaunch l).readByte a = f a

/-- The invariant at reset. -/
def Obligations.LaunchEstablishesInvariant : Prop :=
  State.reset.Inv ∧ ∀ l : Launch, launchAdmitted l = true → (State.ofLaunch l).Inv

/-- The machine's invariant: R6, R14, R20, R31. -/
def Obligations.StepKeepsInvariant : Prop :=
  ∀ s t : State, s.Inv → step s = .next t → t.Inv

/-- The program is "immutable for the run" (spec/20_memory.md R30), along every run. -/
def Obligations.ReachedStatesKeepInvariantAndProgram : Prop :=
  ∀ s t : State, s.Inv → Reaches s t → t.Inv ∧ SameLaunch s t

/-- Decode and encode agree, for all 28 instructions and every operand (R50 to R55, R58). -/
def Obligations.DecodeEncodeRoundTrip : Prop :=
  ∀ (om : OpcodeMap) (i : Instr) (rest : List Byte), om.injective = true → i.wellFormed = true →
    decode om (encode om i ++ rest) = .instr i rest

/-- The other direction: no two encodings of one instruction, no byte skipped (R50, R55). -/
def Obligations.EncodeDecodeRoundTrip : Prop :=
  ∀ (om : OpcodeMap) (bs : List Byte) (i : Instr) (rest : List Byte), decode om bs = .instr i rest →
    bs = encode om i ++ rest ∧ bs.length = i.length + rest.length

/-- The decoder's other answers, in the order of R107. -/
def Obligations.DecoderRejectsByName : Prop :=
  ∀ om : OpcodeMap, om.injective = true →
    (decode om [] = .noByte) ∧
    (∀ op rest, (∀ m, om.byteOf m ≠ op) → decode om (op :: rest) = .unknownOpcode op) ∧
    (∀ m rest, rest.length < m.format.operandSize → decode om (om.byteOf m :: rest) = .truncated m)

/-- Byte strings the spec writes out, one or more per family; the byte values are the spec's decision D1. -/
def Obligations.DefaultMapDecodesTableBytes : Prop :=
  decode OpcodeMap.default [0x12, 0xFF, 0xFF] = .instr (.ldc 0xFFFF) [] ∧
    decode OpcodeMap.default [0x05, 0x34, 0x12] = .instr (.jmp 0x1234) [] ∧
    decode OpcodeMap.default [0x09, 0x02, 0x01, 0xB0, 0xA0] = .instr (.cmp 0x0102 0xA0B0) [] ∧
    decode OpcodeMap.default [0x11, 0x05] = .instr (.sel 0x05) [] ∧
    decode OpcodeMap.default [0x01, 0xEF, 0xBE] = .instr (.psh 0xBEEF) [] ∧
    decode OpcodeMap.default [0x0A, 0x08, 0x00] = .instr (.add 0x0008) [] ∧
    decode OpcodeMap.default [0x1B] = .instr .hlt []

/-- The unrecognized bytes of the default map (R57), whose values are the spec's decision D1. -/
def Obligations.DefaultMapLeavesHighBytesUnrecognized : Prop :=
  ∀ (op : Byte) (rest : List Byte),
    decode OpcodeMap.default (op :: rest) = .unknownOpcode op ↔ 0x1C ≤ op.toNat

/-- The assembler view (spec/30_encoding.md R60, decision D22): count, kind and range of the operands. -/
def Obligations.WrittenInstrAssemblesExactly : Prop :=
  ∀ (w : WrittenInstr) (i : Instr), instrOfWritten w = some i ↔ w = i.written

/-- R33. -/
def Obligations.WordAccessIsLittleEndian : Prop :=
  ∀ (s : State) (a : Nat) (v : Word),
    (s.readWord a).toNat = 256 * (s.readByte (a + 1)).toNat + (s.readByte a).toNat ∧
    (Memory.wf s.mem = true → HoldsWord (s.writeWord a v) a v) ∧ SameMemoryOutside a s (s.writeWord a v)

/-- A word read returns the latest write (spec/20_memory.md R45; corner case of R75). -/
def Obligations.StoreThenLoadGivesBack : Prop :=
  ∀ (s : State) (a v : Word), Memory.wf s.mem = true → a.toNat + 1 < s.memSize →
    (∃ t u, exec (.lca a) s = .next t ∧ exec (.sca a) { t with acc := v } = .next u ∧ u.acc = s.acc) ∧
    (∃ t u, exec (.lsp a) s = .next t ∧ exec (.ssp a) { t with sp := v } = .next u ∧ u.sp = s.sp)

/-- The stack laws (spec/41_stack.md R77, the spec's derivation). -/
def Obligations.PushThenPopRestores : Prop :=
  ∀ (s : State) (v : Word), Memory.wf s.mem = true → s.memSize ≤ 65536 → s.sp.toNat + 2 < s.memSize →
    (∃ t u, exec (.psh v) s = .next t ∧ exec .pop t = .next u ∧ u.acc = v ∧ u.sp = s.sp) ∧
    (∃ t u, exec .pac s = .next t ∧ exec .pop t = .next u ∧ u.acc = s.acc ∧ u.sp = s.sp)

/-- The stack laws (spec/41_stack.md R77, the spec's derivation). -/
def Obligations.TwoPushesOverlap : Prop :=
  ∀ (s : State) (v1 v2 : Word), Memory.wf s.mem = true → s.memSize ≤ 65536 → s.sp.toNat + 3 < s.memSize →
    ∃ t u p q, exec (.psh v1) s = .next t ∧ exec (.psh v2) t = .next u ∧
      u.readByte (s.sp.toNat + 1) = v1.extractLsb' 0 8 ∧ u.readByte (s.sp.toNat + 2) = v2.extractLsb' 0 8 ∧
      u.readByte (s.sp.toNat + 3) = v2.extractLsb' 8 8 ∧
      exec .pop u = .next p ∧ p.acc = v2 ∧
      exec .pop p = .next q ∧ q.acc.toNat = 256 * (v2.toNat % 256) + v1.toNat % 256 ∧ q.sp = s.sp

/-- The division law (spec/43_alu.md R87 corner case, R94). -/
def Obligations.DivAndModAgree : Prop :=
  ∀ (s : State) (a : Word), a.toNat + 1 < s.memSize → s.readWord a.toNat ≠ 0 →
    ∃ t u, exec (.div a) s = .next t ∧ exec (.mod a) s = .next u ∧
      t.acc.toNat * (s.readWord a.toNat).toNat + u.acc.toNat = s.acc.toNat ∧
      u.acc.toNat < (s.readWord a.toNat).toNat

/-- The causes of spec/60_exceptions.md R102 in the order of R107 (`fatalCause`), each with no partial effect (D8). -/
def Obligations.FatalFaultsExactlyByTable : Prop :=
  ∀ (i : Instr) (s : State),
    (∀ k n, fatalCause i s = some (k, n) →
      exec i s = .next { s with status := .faulted, fault := some ⟨k, BitVec.ofNat 17 n⟩ } ∧ n ≤ 65536) ∧
    (fatalCause i s = none → ∃ t, exec i s = .next t ∧ t.fault = s.fault ∧ (t.status = .faulted → s.status = .faulted))

/-- Faults are precise (spec/60_exceptions.md R103, R110; decision D8). -/
def Obligations.FatalFaultsArePrecise : Prop :=
  ∀ s t : State, step s = .next t → t.status = .faulted →
    ∃ k info, t = { s with status := .faulted, fault := some ⟨k, info⟩ }

/-- HALTED is the end by HLT (spec/10_state.md R19, spec/70_reset_and_hazards.md R123). -/
def Obligations.HaltedOnlyByHlt : Prop :=
  ∀ s t : State, step s = .next t → t.status = .halted →
    ∃ rest, decode s.opcodeMap (s.prog.drop s.ip.toNat) = .instr .hlt rest

/-- Incidents are appended and never removed (spec/10_state.md R21, spec/60_exceptions.md R106, R107). -/
def Obligations.IncidentLogOnlyGrows : Prop :=
  ∀ s t : State, step s = .next t → t.incidents = s.incidents ∨
    ∃ r : Incident, t.incidents = s.incidents ++ [r] ∧ r.ip = s.ip ∧ t.status = .running ∧ t.fault = s.fault

/-- Writers of the registers (spec/10_state.md summary table, R13, R15, R16) and of the console output (R96). -/
def Obligations.RegistersWrittenOnlyByTheirInstructions : Prop :=
  ∀ (i : Instr) (s t : State), exec i s = .next t →
    (t.acc ≠ s.acc → i.writesAcc = true) ∧ (t.sp ≠ s.sp → i.writesSp = true) ∧
    (t.device ≠ s.device → i = .sel t.device) ∧
    (t.output ≠ s.output → i = .waw ∧ s.device = 0 ∧ t.output = s.output ++ [s.acc.extractLsb' 0 8])

/-- The column "writes" of the access table (spec/20_memory.md R40); `storeAddress` computes the address as the
meanings do. -/
def Obligations.MemoryWrittenOnlyAtStoreAddress : Prop :=
  ∀ (i : Instr) (s t : State), exec i s = .next t →
    (∀ a, storeAddress i s = some a → SameMemoryOutside a s t) ∧
    (storeAddress i s = none → SameMemory s t) ∧ SameLaunch s t

/-- R48. -/
def Obligations.StoresAreNeverFetched : Prop :=
  (∀ (s : State) (m : Memory), fetch { s with mem := m } = fetch s) ∧
    (∀ s t : State, step s = .next t → t.prog = s.prog)

/-- The log is visible only on the dump, "never to the running program" (spec/10_state.md R18). -/
def Obligations.LogsAreInvisibleToTheProgram : Prop :=
  ∀ (s t : State) (log : List Incident) (out : List Byte), step s = .next t →
    ∃ u, step { s with incidents := log, output := out } = .next u ∧
      { u with incidents := t.incidents, output := t.output } = t

/-- The advance (spec/40_loop_and_control.md R65): `next <= PROG_LEN <= 65536`. -/
def Obligations.SequentialAdvanceNeverWraps : Prop :=
  ∀ (s t : State) (i : Instr) (rest : List Byte), s.Inv →
    decode s.opcodeMap (s.prog.drop s.ip.toNat) = .instr i rest → step s = .next t → t.status ≠ .faulted →
    i.isJump = false → ¬ (i = .raw ∧ s.Waiting) →
    t.ip.toNat = s.ip.toNat + i.length ∧ t.ip.toNat ≤ s.prog.length

/-- The state dump (spec/10_state.md R28) with the codes of R19, R102, R105, the spec's decisions D15, D16. -/
def Obligations.DumpPresentsEndedRun : Prop :=
  (∀ s : State, s.status = .running → dumpState s = none) ∧
    (∀ s : State, s.status ≠ .running → ∃ d, dumpState s = some d ∧
      d.ip = s.ip ∧ d.sp = s.sp ∧ d.acc = s.acc ∧ d.device = s.device ∧
      d.status = (if s.status = .halted then 1 else 2) ∧
      (s.fault = none → d.faultCode = 0 ∧ d.faultInfo = none) ∧
      (∀ info, s.fault = some ⟨.ipOverrun, info⟩ → d.faultCode = 1 ∧ d.faultInfo = some info) ∧
      (∀ info, s.fault = some ⟨.outOfBounds, info⟩ → d.faultCode = 2 ∧ d.faultInfo = some info) ∧
      (∀ info, s.fault = some ⟨.stackOverflow, info⟩ → d.faultCode = 3 ∧ d.faultInfo = some info) ∧
      (∀ info, s.fault = some ⟨.divideByZero, info⟩ → d.faultCode = 4 ∧ d.faultInfo = some info) ∧
      d.incidents.length = s.incidents.length ∧
      (∀ (n : Nat) (x : Incident), s.incidents[n]? = some x →
        d.incidents[n]? = some ⟨(match x.kind with
          | .unknownOpcode => 1
          | .unknownDeviceWrite => 2
          | .unknownDeviceRead => 3), x.ip, x.value⟩))
end

