-- ==== Sys2Proof/Laws/Decode.lean ====
section
/-! SUPPORT. The small laws of encoding and decoding: the byte order, the opcode map's lookup, the operand readers and
the lengths (spec/30_encoding.md R50 to R55). -/

namespace Sys2Proof

/-! ## Byte order -/

/-- `w = 256 * hi + lo` (R52). -/
theorem wordOfBytes_toNat (lo hi : Byte) : (wordOfBytes lo hi).toNat = 256 * hi.toNat + lo.toNat := by
  have := lo.isLt
  have := hi.isLt
  simp only [wordOfBytes, BitVec.toNat_ofNat]
  omega

theorem loByte_toNat (w : Word) : (loByte w).toNat = w.toNat % 256 := by
  simp [loByte]

theorem hiByte_toNat (w : Word) : (hiByte w).toNat = w.toNat / 256 := by
  have := w.isLt
  simp [hiByte, Nat.shiftRight_eq_div_pow]
  omega

@[simp] theorem wordOfBytes_loByte_hiByte (w : Word) : wordOfBytes (loByte w) (hiByte w) = w := by
  apply BitVec.eq_of_toNat_eq
  rw [wordOfBytes_toNat, loByte_toNat, hiByte_toNat]
  omega

@[simp] theorem loByte_wordOfBytes (lo hi : Byte) : loByte (wordOfBytes lo hi) = lo := by
  have := lo.isLt
  apply BitVec.eq_of_toNat_eq
  rw [loByte_toNat, wordOfBytes_toNat]
  omega

@[simp] theorem hiByte_wordOfBytes (lo hi : Byte) : hiByte (wordOfBytes lo hi) = hi := by
  have := lo.isLt
  apply BitVec.eq_of_toNat_eq
  rw [hiByte_toNat, wordOfBytes_toNat]
  omega

/-! ## The opcode map -/

theorem Mnemonic.mem_all (m : Mnemonic) : m ∈ Mnemonic.all := by
  cases m <;> decide

/-- Looking up the image of a member under an injective map finds that member. -/
theorem find_image_of_nodup {α β : Type} [BEq β] [LawfulBEq β] (f : α → β) {l : List α}
    (hl : (l.map f).Nodup) {x : α} (hx : x ∈ l) : l.find? (fun y => f y == f x) = some x := by
  induction l with
  | nil => cases hx
  | cons y l ih =>
    simp only [List.map_cons, List.nodup_cons, List.mem_map, not_exists, not_and] at hl
    rcases List.mem_cons.mp hx with rfl | hx
    · simp
    · rw [List.find?_cons, beq_false_of_ne fun h => hl.1 x hx h.symm]
      exact ih hl.2 hx

/-- An injective opcode map reads back the opcode it wrote (R55). -/
theorem OpcodeMap.opcodeOf_byteOf {om : OpcodeMap} (h : om.injective = true) (m : Mnemonic) :
    om.opcodeOf (om.byteOf m) = some m :=
  find_image_of_nodup om.byteOf (of_decide_eq_true h) m.mem_all

/-- The opcode found for a byte is one whose byte it is. -/
theorem OpcodeMap.byteOf_of_opcodeOf {om : OpcodeMap} {op : Byte} {m : Mnemonic}
    (h : om.opcodeOf op = some m) : om.byteOf m = op :=
  eq_of_beq (List.find?_some (p := fun m => om.byteOf m == op) h)

/-- A byte is unrecognized exactly when it is no opcode's byte (R57). -/
theorem OpcodeMap.opcodeOf_eq_none {om : OpcodeMap} {op : Byte} :
    om.opcodeOf op = none ↔ ∀ m, om.byteOf m ≠ op := by
  simp only [opcodeOf, List.find?_eq_none, beq_iff_eq]
  exact ⟨fun h m => h m m.mem_all, fun h m _ => h m⟩

theorem OpcodeMap.default_injective : OpcodeMap.default.injective = true := by decide

/-! ## Operand readers -/

@[simp] theorem takeWord_wordBytes (k : Word → Instr) (w : Word) (rest : List Byte) :
    takeWord k (wordBytes w ++ rest) = some (k w, rest) := by
  simp [takeWord, wordBytes]

@[simp] theorem takeTwoWords_wordBytes (k : Word → Word → Instr) (w1 w2 : Word) (rest : List Byte) :
    takeTwoWords k (wordBytes w1 ++ (wordBytes w2 ++ rest)) = some (k w1 w2, rest) := by
  simp [takeTwoWords, wordBytes]

@[simp] theorem takeByte_cons (k : Byte → Instr) (b : Byte) (rest : List Byte) :
    takeByte k (b :: rest) = some (k b, rest) := rfl

theorem takeByte_eq_some {k : Byte → Instr} {bs rest : List Byte} {i : Instr}
    (h : takeByte k bs = some (i, rest)) : ∃ b, i = k b ∧ bs = b :: rest := by
  cases bs with
  | nil => cases h
  | cons b bs => cases h; exact ⟨b, rfl, rfl⟩

theorem takeWord_eq_some {k : Word → Instr} {bs rest : List Byte} {i : Instr}
    (h : takeWord k bs = some (i, rest)) : ∃ w, i = k w ∧ bs = wordBytes w ++ rest := by
  match bs with
  | [] => cases h
  | [_] => cases h
  | lo :: hi :: bs => cases h; exact ⟨wordOfBytes lo hi, rfl, by simp [wordBytes]⟩

theorem takeTwoWords_eq_some {k : Word → Word → Instr} {bs rest : List Byte} {i : Instr}
    (h : takeTwoWords k bs = some (i, rest)) :
    ∃ w1 w2, i = k w1 w2 ∧ bs = wordBytes w1 ++ (wordBytes w2 ++ rest) := by
  match bs with
  | [] => cases h
  | [_] => cases h
  | [_, _] => cases h
  | [_, _, _] => cases h
  | a :: b :: c :: d :: bs =>
    cases h
    exact ⟨wordOfBytes a b, wordOfBytes c d, rfl, by simp [wordBytes]⟩

theorem takeByte_eq_none {k : Byte → Instr} {bs : List Byte} : takeByte k bs = none ↔ bs.length < 1 := by
  cases bs <;> simp [takeByte]

theorem takeWord_eq_none {k : Word → Instr} {bs : List Byte} : takeWord k bs = none ↔ bs.length < 2 := by
  match bs with
  | [] => simp [takeWord]
  | [_] => simp [takeWord]
  | _ :: _ :: _ => simp [takeWord]

theorem takeTwoWords_eq_none {k : Word → Word → Instr} {bs : List Byte} :
    takeTwoWords k bs = none ↔ bs.length < 4 := by
  match bs with
  | [] => simp [takeTwoWords]
  | [_] => simp [takeTwoWords]
  | [_, _] => simp [takeTwoWords]
  | [_, _, _] => simp [takeTwoWords]
  | _ :: _ :: _ :: _ :: _ => simp [takeTwoWords]

/-- Operands are missing exactly when there are fewer bytes than the format takes (R64). -/
theorem decodeOperands_eq_none {m : Mnemonic} {bs : List Byte} :
    decodeOperands m bs = none ↔ bs.length < m.format.operandSize := by
  cases m <;>
    simp [decodeOperands, Mnemonic.format, Format.operandSize, takeByte_eq_none, takeWord_eq_none,
      takeTwoWords_eq_none]

/-- The operand bytes fill exactly what the format takes (R51). -/
theorem Instr.operandBytes_length (i : Instr) : i.operandBytes.length = i.mnemonic.format.operandSize := by
  cases i <;> rfl

/-- An instruction's encoding is `1 + operand-size` bytes long (R50). -/
theorem encode_length (om : OpcodeMap) (i : Instr) : (encode om i).length = i.length := by
  simp [encode, i.operandBytes_length, Instr.length, Format.length, Nat.add_comm]

/-! ## The decoder -/

theorem decode_of_operands {om : OpcodeMap} {op : Byte} {m : Mnemonic} {bs rest : List Byte} {i : Instr}
    (hm : om.opcodeOf op = some m) (hi : decodeOperands m bs = some (i, rest)) :
    decode om (op :: bs) = .instr i rest := by
  simp [decode, hm, hi]

/-- What the decoder answers, once for all: each answer with what it says about the bytes. -/
theorem decode_cases (om : OpcodeMap) (bs : List Byte) :
    (bs = [] ∧ decode om bs = .noByte) ∨
    (∃ op rest, bs = op :: rest ∧ om.opcodeOf op = none ∧ decode om bs = .unknownOpcode op) ∨
    (∃ op rest m, bs = op :: rest ∧ om.opcodeOf op = some m ∧ rest.length < m.format.operandSize ∧
      decode om bs = .truncated m) ∨
    (∃ op rest m i rest', bs = op :: rest ∧ om.opcodeOf op = some m ∧
      decodeOperands m rest = some (i, rest') ∧ decode om bs = .instr i rest') := by
  cases bs with
  | nil => exact .inl ⟨rfl, rfl⟩
  | cons op rest =>
    cases hm : om.opcodeOf op with
    | none => exact .inr (.inl ⟨op, rest, rfl, hm, by simp [decode, hm]⟩)
    | some m =>
      cases ho : decodeOperands m rest with
      | none =>
        exact .inr (.inr (.inl ⟨op, rest, m, rfl, hm, decodeOperands_eq_none.mp ho, by simp [decode, hm, ho]⟩))
      | some r =>
        exact .inr (.inr (.inr ⟨op, rest, m, r.1, r.2, rfl, hm, ho, by simp [decode, hm, ho]⟩))

/-! ## Well-formedness -/

/-- No operand value is reserved (R58): every instruction is well formed. -/
theorem Instr.wellFormed_eq_true (i : Instr) : i.wellFormed = true := by
  cases i <;> simp [Instr.wellFormed, WrittenInstr.wellFormed, Instr.written, Instr.mnemonic, Mnemonic.format] <;>
    first | exact BitVec.isLt _ | exact ⟨BitVec.isLt _, BitVec.isLt _⟩

end Sys2Proof
end

