-- ==== Sys2Proof/Laws/Memory.lean ====
section
/-! SUPPORT. The laws of the data memory: read after write, every other address untouched, and that a write keeps the
canonical form and stays within the memory's size (spec/20_memory.md R31, R45). -/

namespace Sys2Proof.Machine

@[simp] theorem Memory.wf_nil : Memory.wf [] = true := rfl

@[simp] theorem Memory.within_nil (n : Nat) : Memory.within n [] = true := rfl

theorem Memory.wf_cons {c : Host.Cell} {m : Memory} :
    Memory.wf (c :: m) = true ↔ c.2 ≠ Config.unlistedByte ∧ Memory.above c.1 m = true ∧ Memory.wf m = true := by
  simp [Memory.wf]

theorem Memory.within_cons {n : Nat} {c : Host.Cell} {m : Memory} :
    Memory.within n (c :: m) = true ↔ c.1 < n ∧ Memory.within n m = true := by
  simp [Memory.within]

theorem Memory.above_trans {a b : Nat} {m : Memory} (hab : a ≤ b) (h : Memory.above b m = true) :
    Memory.above a m = true := by
  cases m with
  | nil => rfl
  | cons c m =>
    simp only [Memory.above, decide_eq_true_eq] at h ⊢
    omega

/-- An address below every listed one is unlisted. -/
theorem Memory.readByte_of_above {m : Memory} {a : Nat} (hwf : Memory.wf m = true)
    (h : Memory.above a m = true) : Memory.readByte m a = Config.unlistedByte := by
  induction m with
  | nil => rfl
  | cons c m ih =>
    obtain ⟨-, habove, hm⟩ := Memory.wf_cons.mp hwf
    simp only [Memory.above, decide_eq_true_eq] at h
    rw [Memory.readByte, if_neg (by omega), ih hm (Memory.above_trans (by omega) habove)]

theorem Memory.readByte_consCell_other {m : Memory} {a x : Nat} {b : Byte} (hx : x ≠ a) :
    Memory.readByte (Memory.consCell a b m) x = Memory.readByte m x := by
  unfold Memory.consCell
  split
  · rfl
  · rw [Memory.readByte, if_neg hx]

theorem Memory.readByte_consCell_same {m : Memory} {a : Nat} {b : Byte} (hwf : Memory.wf m = true)
    (habove : Memory.above a m = true) : Memory.readByte (Memory.consCell a b m) a = b := by
  unfold Memory.consCell
  split
  · rename_i hb
    rw [Memory.readByte_of_above hwf habove, hb]
  · rw [Memory.readByte, if_pos rfl]

/-- A write leaves every other address alone. -/
theorem Memory.readByte_writeByte_other (m : Memory) {a x : Nat} (b : Byte) (hx : x ≠ a) :
    Memory.readByte (Memory.writeByte m a b) x = Memory.readByte m x := by
  induction m with
  | nil => exact Memory.readByte_consCell_other hx
  | cons c m ih =>
    unfold Memory.writeByte
    split
    · exact Memory.readByte_consCell_other hx
    · split
      · rename_i hac
        rw [Memory.readByte_consCell_other hx, Memory.readByte, if_neg (by omega)]
      · simp only [Memory.readByte, ih]

/-- A read after a write to the same address gives the byte written. -/
theorem Memory.readByte_writeByte_same {m : Memory} (hwf : Memory.wf m = true) (a : Nat) (b : Byte) :
    Memory.readByte (Memory.writeByte m a b) a = b := by
  induction m with
  | nil => exact Memory.readByte_consCell_same hwf rfl
  | cons c m ih =>
    obtain ⟨-, habove, hm⟩ := Memory.wf_cons.mp hwf
    unfold Memory.writeByte
    split
    · exact Memory.readByte_consCell_same hwf (by simpa [Memory.above])
    · split
      · rename_i hac
        exact Memory.readByte_consCell_same hm (by rwa [hac])
      · rename_i hne
        rw [Memory.readByte, if_neg hne, ih hm]

theorem Memory.above_consCell {m : Memory} {x a : Nat} {b : Byte} (hxa : x < a)
    (h : Memory.above x m = true) : Memory.above x (Memory.consCell a b m) = true := by
  unfold Memory.consCell
  split
  · exact h
  · simpa [Memory.above] using hxa

theorem Memory.above_writeByte {m : Memory} {x a : Nat} {b : Byte} (hxa : x < a)
    (h : Memory.above x m = true) (hwf : Memory.wf m = true) :
    Memory.above x (Memory.writeByte m a b) = true := by
  cases m with
  | nil => exact Memory.above_consCell hxa h
  | cons c m =>
    obtain ⟨-, habove, -⟩ := Memory.wf_cons.mp hwf
    have hc : x < c.1 := by simpa [Memory.above] using h
    unfold Memory.writeByte
    split
    · exact Memory.above_consCell hxa h
    · split
      · exact Memory.above_consCell hxa (Memory.above_trans (by omega) habove)
      · simpa [Memory.above] using hc

theorem Memory.wf_consCell {m : Memory} {a : Nat} {b : Byte} (hwf : Memory.wf m = true)
    (habove : Memory.above a m = true) : Memory.wf (Memory.consCell a b m) = true := by
  unfold Memory.consCell
  split
  · exact hwf
  · rename_i hb
    exact Memory.wf_cons.mpr ⟨hb, habove, hwf⟩

/-- A write keeps the canonical form. -/
theorem Memory.wf_writeByte {m : Memory} (hwf : Memory.wf m = true) (a : Nat) (b : Byte) :
    Memory.wf (Memory.writeByte m a b) = true := by
  induction m with
  | nil => exact Memory.wf_consCell hwf rfl
  | cons c m ih =>
    obtain ⟨hne, habove, hm⟩ := Memory.wf_cons.mp hwf
    unfold Memory.writeByte
    split
    · exact Memory.wf_consCell hwf (by simpa [Memory.above])
    · split
      · rename_i hac
        exact Memory.wf_consCell hm (by rwa [hac])
      · exact Memory.wf_cons.mpr ⟨hne, Memory.above_writeByte (by omega) habove hm, ih hm⟩

theorem Memory.within_consCell {n : Nat} {m : Memory} {a : Nat} {b : Byte} (ha : a < n)
    (h : Memory.within n m = true) : Memory.within n (Memory.consCell a b m) = true := by
  unfold Memory.consCell
  split
  · exact h
  · exact Memory.within_cons.mpr ⟨ha, h⟩

/-- A write below `n` keeps the memory below `n`. -/
theorem Memory.within_writeByte {n : Nat} {m : Memory} {a : Nat} (b : Byte) (ha : a < n)
    (h : Memory.within n m = true) : Memory.within n (Memory.writeByte m a b) = true := by
  induction m with
  | nil => exact Memory.within_consCell ha h
  | cons c m ih =>
    obtain ⟨hc, hm⟩ := Memory.within_cons.mp h
    unfold Memory.writeByte
    split
    · exact Memory.within_consCell ha h
    · split
      · exact Memory.within_consCell ha hm
      · exact Memory.within_cons.mpr ⟨hc, ih hm⟩

/-- Two memories in canonical form that read alike are the same list: equal memories are equal data. -/
theorem Memory.eq_of_readByte {m m' : Memory} (hwf : Memory.wf m = true) (hwf' : Memory.wf m' = true)
    (h : ∀ a, Memory.readByte m a = Memory.readByte m' a) : m = m' := by
  induction m generalizing m' with
  | nil =>
    cases m' with
    | nil => rfl
    | cons c' m' => exact absurd (by simpa [Memory.readByte] using (h c'.1).symm) (Memory.wf_cons.mp hwf').1
  | cons c m ih =>
    cases m' with
    | nil => exact absurd (by simpa [Memory.readByte] using h c.1) (Memory.wf_cons.mp hwf).1
    | cons c' m' =>
      obtain ⟨hne, habove, hm⟩ := Memory.wf_cons.mp hwf
      obtain ⟨hne', habove', hm'⟩ := Memory.wf_cons.mp hwf'
      have hlow {x : Nat} {d : Host.Cell} {l : Memory} (hx : x < d.1) (hd : Memory.wf (d :: l) = true) :
          Memory.readByte (d :: l) x = Config.unlistedByte :=
        Memory.readByte_of_above hd (by simpa [Memory.above] using hx)
      have hhead (d : Host.Cell) (l : Memory) : Memory.readByte (d :: l) d.1 = d.2 := if_pos rfl
      have hkey : c.1 = c'.1 := by
        rcases Nat.lt_trichotomy c.1 c'.1 with hlt | heq | hgt
        · exact absurd ((hhead c m).symm.trans ((h c.1).trans (hlow hlt hwf'))) hne
        · exact heq
        · exact absurd ((hhead c' m').symm.trans ((h c'.1).symm.trans (hlow hgt hwf))) hne'
      have hval : c.2 = c'.2 := by simpa [Memory.readByte, hkey] using h c.1
      have htail : m = m' := ih hm hm' fun a => by
        by_cases ha : a = c.1
        · rw [ha, Memory.readByte_of_above hm habove, hkey, Memory.readByte_of_above hm' habove']
        · simpa [Memory.readByte, ha, hkey ▸ ha] using h a
      rw [htail, Prod.ext hkey hval]

end Sys2Proof.Machine
end

