-- ==== Sys2Proof/Laws/State.lean ====
section
/-! SUPPORT. One lemma per field per update of `State`, so that no later proof unfolds a record update. -/

namespace Sys2Proof.Machine

/-! ## `State.setAcc` -/

@[simp] theorem State.setAcc_acc (s : State) (v : Word) : (s.setAcc v).acc = v := rfl
@[simp] theorem State.setAcc_ip (s : State) (v : Word) : (s.setAcc v).ip = s.ip := rfl
@[simp] theorem State.setAcc_sp (s : State) (v : Word) : (s.setAcc v).sp = s.sp := rfl
@[simp] theorem State.setAcc_device (s : State) (v : Word) : (s.setAcc v).device = s.device := rfl
@[simp] theorem State.setAcc_status (s : State) (v : Word) : (s.setAcc v).status = s.status := rfl
@[simp] theorem State.setAcc_fault (s : State) (v : Word) : (s.setAcc v).fault = s.fault := rfl
@[simp] theorem State.setAcc_incidents (s : State) (v : Word) : (s.setAcc v).incidents = s.incidents := rfl
@[simp] theorem State.setAcc_mem (s : State) (v : Word) : (s.setAcc v).mem = s.mem := rfl
@[simp] theorem State.setAcc_prog (s : State) (v : Word) : (s.setAcc v).prog = s.prog := rfl
@[simp] theorem State.setAcc_memSize (s : State) (v : Word) : (s.setAcc v).memSize = s.memSize := rfl
@[simp] theorem State.setAcc_opcodeMap (s : State) (v : Word) : (s.setAcc v).opcodeMap = s.opcodeMap := rfl
@[simp] theorem State.setAcc_eofSentinel (s : State) (v : Word) :
    (s.setAcc v).eofSentinel = s.eofSentinel := rfl
@[simp] theorem State.setAcc_input (s : State) (v : Word) : (s.setAcc v).input = s.input := rfl
@[simp] theorem State.setAcc_inputClosed (s : State) (v : Word) :
    (s.setAcc v).inputClosed = s.inputClosed := rfl
@[simp] theorem State.setAcc_output (s : State) (v : Word) : (s.setAcc v).output = s.output := rfl
@[simp] theorem State.setAcc_hostActions (s : State) (v : Word) :
    (s.setAcc v).hostActions = s.hostActions := rfl

/-! ## `State.setSp` -/

@[simp] theorem State.setSp_acc (s : State) (v : Word) : (s.setSp v).acc = s.acc := rfl
@[simp] theorem State.setSp_ip (s : State) (v : Word) : (s.setSp v).ip = s.ip := rfl
@[simp] theorem State.setSp_sp (s : State) (v : Word) : (s.setSp v).sp = v := rfl
@[simp] theorem State.setSp_device (s : State) (v : Word) : (s.setSp v).device = s.device := rfl
@[simp] theorem State.setSp_status (s : State) (v : Word) : (s.setSp v).status = s.status := rfl
@[simp] theorem State.setSp_fault (s : State) (v : Word) : (s.setSp v).fault = s.fault := rfl
@[simp] theorem State.setSp_incidents (s : State) (v : Word) : (s.setSp v).incidents = s.incidents := rfl
@[simp] theorem State.setSp_mem (s : State) (v : Word) : (s.setSp v).mem = s.mem := rfl
@[simp] theorem State.setSp_prog (s : State) (v : Word) : (s.setSp v).prog = s.prog := rfl
@[simp] theorem State.setSp_memSize (s : State) (v : Word) : (s.setSp v).memSize = s.memSize := rfl
@[simp] theorem State.setSp_opcodeMap (s : State) (v : Word) : (s.setSp v).opcodeMap = s.opcodeMap := rfl
@[simp] theorem State.setSp_eofSentinel (s : State) (v : Word) :
    (s.setSp v).eofSentinel = s.eofSentinel := rfl
@[simp] theorem State.setSp_input (s : State) (v : Word) : (s.setSp v).input = s.input := rfl
@[simp] theorem State.setSp_inputClosed (s : State) (v : Word) :
    (s.setSp v).inputClosed = s.inputClosed := rfl
@[simp] theorem State.setSp_output (s : State) (v : Word) : (s.setSp v).output = s.output := rfl
@[simp] theorem State.setSp_hostActions (s : State) (v : Word) :
    (s.setSp v).hostActions = s.hostActions := rfl

/-! ## `State.setDevice` -/

@[simp] theorem State.setDevice_acc (s : State) (id : Byte) : (s.setDevice id).acc = s.acc := rfl
@[simp] theorem State.setDevice_ip (s : State) (id : Byte) : (s.setDevice id).ip = s.ip := rfl
@[simp] theorem State.setDevice_sp (s : State) (id : Byte) : (s.setDevice id).sp = s.sp := rfl
@[simp] theorem State.setDevice_device (s : State) (id : Byte) : (s.setDevice id).device = id := rfl
@[simp] theorem State.setDevice_status (s : State) (id : Byte) : (s.setDevice id).status = s.status := rfl
@[simp] theorem State.setDevice_fault (s : State) (id : Byte) : (s.setDevice id).fault = s.fault := rfl
@[simp] theorem State.setDevice_incidents (s : State) (id : Byte) :
    (s.setDevice id).incidents = s.incidents := rfl
@[simp] theorem State.setDevice_mem (s : State) (id : Byte) : (s.setDevice id).mem = s.mem := rfl
@[simp] theorem State.setDevice_prog (s : State) (id : Byte) : (s.setDevice id).prog = s.prog := rfl
@[simp] theorem State.setDevice_memSize (s : State) (id : Byte) : (s.setDevice id).memSize = s.memSize := rfl
@[simp] theorem State.setDevice_opcodeMap (s : State) (id : Byte) :
    (s.setDevice id).opcodeMap = s.opcodeMap := rfl
@[simp] theorem State.setDevice_eofSentinel (s : State) (id : Byte) :
    (s.setDevice id).eofSentinel = s.eofSentinel := rfl
@[simp] theorem State.setDevice_input (s : State) (id : Byte) : (s.setDevice id).input = s.input := rfl
@[simp] theorem State.setDevice_inputClosed (s : State) (id : Byte) :
    (s.setDevice id).inputClosed = s.inputClosed := rfl
@[simp] theorem State.setDevice_output (s : State) (id : Byte) : (s.setDevice id).output = s.output := rfl
@[simp] theorem State.setDevice_hostActions (s : State) (id : Byte) :
    (s.setDevice id).hostActions = s.hostActions := rfl

/-! ## `State.jumpTo` -/

@[simp] theorem State.jumpTo_acc (s : State) (t : Word) : (s.jumpTo t).acc = s.acc := rfl
@[simp] theorem State.jumpTo_ip (s : State) (t : Word) : (s.jumpTo t).ip = t.setWidth 17 := rfl
@[simp] theorem State.jumpTo_sp (s : State) (t : Word) : (s.jumpTo t).sp = s.sp := rfl
@[simp] theorem State.jumpTo_device (s : State) (t : Word) : (s.jumpTo t).device = s.device := rfl
@[simp] theorem State.jumpTo_status (s : State) (t : Word) : (s.jumpTo t).status = s.status := rfl
@[simp] theorem State.jumpTo_fault (s : State) (t : Word) : (s.jumpTo t).fault = s.fault := rfl
@[simp] theorem State.jumpTo_incidents (s : State) (t : Word) : (s.jumpTo t).incidents = s.incidents := rfl
@[simp] theorem State.jumpTo_mem (s : State) (t : Word) : (s.jumpTo t).mem = s.mem := rfl
@[simp] theorem State.jumpTo_prog (s : State) (t : Word) : (s.jumpTo t).prog = s.prog := rfl
@[simp] theorem State.jumpTo_memSize (s : State) (t : Word) : (s.jumpTo t).memSize = s.memSize := rfl
@[simp] theorem State.jumpTo_opcodeMap (s : State) (t : Word) : (s.jumpTo t).opcodeMap = s.opcodeMap := rfl
@[simp] theorem State.jumpTo_eofSentinel (s : State) (t : Word) :
    (s.jumpTo t).eofSentinel = s.eofSentinel := rfl
@[simp] theorem State.jumpTo_input (s : State) (t : Word) : (s.jumpTo t).input = s.input := rfl
@[simp] theorem State.jumpTo_inputClosed (s : State) (t : Word) :
    (s.jumpTo t).inputClosed = s.inputClosed := rfl
@[simp] theorem State.jumpTo_output (s : State) (t : Word) : (s.jumpTo t).output = s.output := rfl
@[simp] theorem State.jumpTo_hostActions (s : State) (t : Word) :
    (s.jumpTo t).hostActions = s.hostActions := rfl

/-! ## `State.advance` -/

@[simp] theorem State.advance_acc (s : State) (n : Nat) : (s.advance n).acc = s.acc := rfl
@[simp] theorem State.advance_ip (s : State) (n : Nat) : (s.advance n).ip = s.ip + BitVec.ofNat 17 n := rfl
@[simp] theorem State.advance_sp (s : State) (n : Nat) : (s.advance n).sp = s.sp := rfl
@[simp] theorem State.advance_device (s : State) (n : Nat) : (s.advance n).device = s.device := rfl
@[simp] theorem State.advance_status (s : State) (n : Nat) : (s.advance n).status = s.status := rfl
@[simp] theorem State.advance_fault (s : State) (n : Nat) : (s.advance n).fault = s.fault := rfl
@[simp] theorem State.advance_incidents (s : State) (n : Nat) : (s.advance n).incidents = s.incidents := rfl
@[simp] theorem State.advance_mem (s : State) (n : Nat) : (s.advance n).mem = s.mem := rfl
@[simp] theorem State.advance_prog (s : State) (n : Nat) : (s.advance n).prog = s.prog := rfl
@[simp] theorem State.advance_memSize (s : State) (n : Nat) : (s.advance n).memSize = s.memSize := rfl
@[simp] theorem State.advance_opcodeMap (s : State) (n : Nat) : (s.advance n).opcodeMap = s.opcodeMap := rfl
@[simp] theorem State.advance_eofSentinel (s : State) (n : Nat) :
    (s.advance n).eofSentinel = s.eofSentinel := rfl
@[simp] theorem State.advance_input (s : State) (n : Nat) : (s.advance n).input = s.input := rfl
@[simp] theorem State.advance_inputClosed (s : State) (n : Nat) :
    (s.advance n).inputClosed = s.inputClosed := rfl
@[simp] theorem State.advance_output (s : State) (n : Nat) : (s.advance n).output = s.output := rfl
@[simp] theorem State.advance_hostActions (s : State) (n : Nat) :
    (s.advance n).hostActions = s.hostActions := rfl

/-! ## `State.halt` -/

@[simp] theorem State.halt_acc (s : State) : (s.halt).acc = s.acc := rfl
@[simp] theorem State.halt_ip (s : State) : (s.halt).ip = s.ip := rfl
@[simp] theorem State.halt_sp (s : State) : (s.halt).sp = s.sp := rfl
@[simp] theorem State.halt_device (s : State) : (s.halt).device = s.device := rfl
@[simp] theorem State.halt_status (s : State) : (s.halt).status = .halted := rfl
@[simp] theorem State.halt_fault (s : State) : (s.halt).fault = s.fault := rfl
@[simp] theorem State.halt_incidents (s : State) : (s.halt).incidents = s.incidents := rfl
@[simp] theorem State.halt_mem (s : State) : (s.halt).mem = s.mem := rfl
@[simp] theorem State.halt_prog (s : State) : (s.halt).prog = s.prog := rfl
@[simp] theorem State.halt_memSize (s : State) : (s.halt).memSize = s.memSize := rfl
@[simp] theorem State.halt_opcodeMap (s : State) : (s.halt).opcodeMap = s.opcodeMap := rfl
@[simp] theorem State.halt_eofSentinel (s : State) : (s.halt).eofSentinel = s.eofSentinel := rfl
@[simp] theorem State.halt_input (s : State) : (s.halt).input = s.input := rfl
@[simp] theorem State.halt_inputClosed (s : State) : (s.halt).inputClosed = s.inputClosed := rfl
@[simp] theorem State.halt_output (s : State) : (s.halt).output = s.output := rfl
@[simp] theorem State.halt_hostActions (s : State) : (s.halt).hostActions = s.hostActions := rfl

/-! ## `State.faultWith` -/

@[simp] theorem State.faultWith_acc (s : State) (k : FatalKind) (info : Offset) :
    (s.faultWith k info).acc = s.acc := rfl
@[simp] theorem State.faultWith_ip (s : State) (k : FatalKind) (info : Offset) :
    (s.faultWith k info).ip = s.ip := rfl
@[simp] theorem State.faultWith_sp (s : State) (k : FatalKind) (info : Offset) :
    (s.faultWith k info).sp = s.sp := rfl
@[simp] theorem State.faultWith_device (s : State) (k : FatalKind) (info : Offset) :
    (s.faultWith k info).device = s.device := rfl
@[simp] theorem State.faultWith_status (s : State) (k : FatalKind) (info : Offset) :
    (s.faultWith k info).status = .faulted := rfl
@[simp] theorem State.faultWith_fault (s : State) (k : FatalKind) (info : Offset) :
    (s.faultWith k info).fault = some { kind := k, info := info } := rfl
@[simp] theorem State.faultWith_incidents (s : State) (k : FatalKind) (info : Offset) :
    (s.faultWith k info).incidents = s.incidents := rfl
@[simp] theorem State.faultWith_mem (s : State) (k : FatalKind) (info : Offset) :
    (s.faultWith k info).mem = s.mem := rfl
@[simp] theorem State.faultWith_prog (s : State) (k : FatalKind) (info : Offset) :
    (s.faultWith k info).prog = s.prog := rfl
@[simp] theorem State.faultWith_memSize (s : State) (k : FatalKind) (info : Offset) :
    (s.faultWith k info).memSize = s.memSize := rfl
@[simp] theorem State.faultWith_opcodeMap (s : State) (k : FatalKind) (info : Offset) :
    (s.faultWith k info).opcodeMap = s.opcodeMap := rfl
@[simp] theorem State.faultWith_eofSentinel (s : State) (k : FatalKind) (info : Offset) :
    (s.faultWith k info).eofSentinel = s.eofSentinel := rfl
@[simp] theorem State.faultWith_input (s : State) (k : FatalKind) (info : Offset) :
    (s.faultWith k info).input = s.input := rfl
@[simp] theorem State.faultWith_inputClosed (s : State) (k : FatalKind) (info : Offset) :
    (s.faultWith k info).inputClosed = s.inputClosed := rfl
@[simp] theorem State.faultWith_output (s : State) (k : FatalKind) (info : Offset) :
    (s.faultWith k info).output = s.output := rfl
@[simp] theorem State.faultWith_hostActions (s : State) (k : FatalKind) (info : Offset) :
    (s.faultWith k info).hostActions = s.hostActions := rfl

/-! ## `State.report` -/

@[simp] theorem State.report_acc (s : State) (k : IncidentKind) (b : Byte) : (s.report k b).acc = s.acc := rfl
@[simp] theorem State.report_ip (s : State) (k : IncidentKind) (b : Byte) : (s.report k b).ip = s.ip := rfl
@[simp] theorem State.report_sp (s : State) (k : IncidentKind) (b : Byte) : (s.report k b).sp = s.sp := rfl
@[simp] theorem State.report_device (s : State) (k : IncidentKind) (b : Byte) :
    (s.report k b).device = s.device := rfl
@[simp] theorem State.report_status (s : State) (k : IncidentKind) (b : Byte) :
    (s.report k b).status = s.status := rfl
@[simp] theorem State.report_fault (s : State) (k : IncidentKind) (b : Byte) :
    (s.report k b).fault = s.fault := rfl
@[simp] theorem State.report_incidents (s : State) (k : IncidentKind) (b : Byte) :
    (s.report k b).incidents = s.incidents ++ [{ kind := k, ip := s.ip, value := b }] := rfl
@[simp] theorem State.report_mem (s : State) (k : IncidentKind) (b : Byte) : (s.report k b).mem = s.mem := rfl
@[simp] theorem State.report_prog (s : State) (k : IncidentKind) (b : Byte) :
    (s.report k b).prog = s.prog := rfl
@[simp] theorem State.report_memSize (s : State) (k : IncidentKind) (b : Byte) :
    (s.report k b).memSize = s.memSize := rfl
@[simp] theorem State.report_opcodeMap (s : State) (k : IncidentKind) (b : Byte) :
    (s.report k b).opcodeMap = s.opcodeMap := rfl
@[simp] theorem State.report_eofSentinel (s : State) (k : IncidentKind) (b : Byte) :
    (s.report k b).eofSentinel = s.eofSentinel := rfl
@[simp] theorem State.report_input (s : State) (k : IncidentKind) (b : Byte) :
    (s.report k b).input = s.input := rfl
@[simp] theorem State.report_inputClosed (s : State) (k : IncidentKind) (b : Byte) :
    (s.report k b).inputClosed = s.inputClosed := rfl
@[simp] theorem State.report_output (s : State) (k : IncidentKind) (b : Byte) :
    (s.report k b).output = s.output := rfl
@[simp] theorem State.report_hostActions (s : State) (k : IncidentKind) (b : Byte) :
    (s.report k b).hostActions = s.hostActions := rfl

/-! ## `State.writeWord` -/

@[simp] theorem State.writeWord_acc (s : State) (a : Nat) (v : Word) : (s.writeWord a v).acc = s.acc := rfl
@[simp] theorem State.writeWord_ip (s : State) (a : Nat) (v : Word) : (s.writeWord a v).ip = s.ip := rfl
@[simp] theorem State.writeWord_sp (s : State) (a : Nat) (v : Word) : (s.writeWord a v).sp = s.sp := rfl
@[simp] theorem State.writeWord_device (s : State) (a : Nat) (v : Word) :
    (s.writeWord a v).device = s.device := rfl
@[simp] theorem State.writeWord_status (s : State) (a : Nat) (v : Word) :
    (s.writeWord a v).status = s.status := rfl
@[simp] theorem State.writeWord_fault (s : State) (a : Nat) (v : Word) :
    (s.writeWord a v).fault = s.fault := rfl
@[simp] theorem State.writeWord_incidents (s : State) (a : Nat) (v : Word) :
    (s.writeWord a v).incidents = s.incidents := rfl
@[simp] theorem State.writeWord_mem (s : State) (a : Nat) (v : Word) :
    (s.writeWord a v).mem = Memory.writeByte (Memory.writeByte s.mem a (loByte v)) (a + 1) (hiByte v) := rfl
@[simp] theorem State.writeWord_prog (s : State) (a : Nat) (v : Word) : (s.writeWord a v).prog = s.prog := rfl
@[simp] theorem State.writeWord_memSize (s : State) (a : Nat) (v : Word) :
    (s.writeWord a v).memSize = s.memSize := rfl
@[simp] theorem State.writeWord_opcodeMap (s : State) (a : Nat) (v : Word) :
    (s.writeWord a v).opcodeMap = s.opcodeMap := rfl
@[simp] theorem State.writeWord_eofSentinel (s : State) (a : Nat) (v : Word) :
    (s.writeWord a v).eofSentinel = s.eofSentinel := rfl
@[simp] theorem State.writeWord_input (s : State) (a : Nat) (v : Word) :
    (s.writeWord a v).input = s.input := rfl
@[simp] theorem State.writeWord_inputClosed (s : State) (a : Nat) (v : Word) :
    (s.writeWord a v).inputClosed = s.inputClosed := rfl
@[simp] theorem State.writeWord_output (s : State) (a : Nat) (v : Word) :
    (s.writeWord a v).output = s.output := rfl
@[simp] theorem State.writeWord_hostActions (s : State) (a : Nat) (v : Word) :
    (s.writeWord a v).hostActions = s.hostActions := rfl

/-! ## `State.emit` -/

@[simp] theorem State.emit_acc (s : State) (v : Word) : (s.emit v).acc = s.acc := rfl
@[simp] theorem State.emit_ip (s : State) (v : Word) : (s.emit v).ip = s.ip := rfl
@[simp] theorem State.emit_sp (s : State) (v : Word) : (s.emit v).sp = s.sp := rfl
@[simp] theorem State.emit_device (s : State) (v : Word) : (s.emit v).device = s.device := rfl
@[simp] theorem State.emit_status (s : State) (v : Word) : (s.emit v).status = s.status := rfl
@[simp] theorem State.emit_fault (s : State) (v : Word) : (s.emit v).fault = s.fault := rfl
@[simp] theorem State.emit_incidents (s : State) (v : Word) : (s.emit v).incidents = s.incidents := rfl
@[simp] theorem State.emit_mem (s : State) (v : Word) : (s.emit v).mem = s.mem := rfl
@[simp] theorem State.emit_prog (s : State) (v : Word) : (s.emit v).prog = s.prog := rfl
@[simp] theorem State.emit_memSize (s : State) (v : Word) : (s.emit v).memSize = s.memSize := rfl
@[simp] theorem State.emit_opcodeMap (s : State) (v : Word) : (s.emit v).opcodeMap = s.opcodeMap := rfl
@[simp] theorem State.emit_eofSentinel (s : State) (v : Word) : (s.emit v).eofSentinel = s.eofSentinel := rfl
@[simp] theorem State.emit_input (s : State) (v : Word) : (s.emit v).input = s.input := rfl
@[simp] theorem State.emit_inputClosed (s : State) (v : Word) : (s.emit v).inputClosed = s.inputClosed := rfl
@[simp] theorem State.emit_output (s : State) (v : Word) : (s.emit v).output = s.output ++ [loByte v] := rfl
@[simp] theorem State.emit_hostActions (s : State) (v : Word) : (s.emit v).hostActions = s.hostActions := rfl

/-! ## `State.setInput` -/

@[simp] theorem State.setInput_acc (s : State) (cs : List Byte) : (s.setInput cs).acc = s.acc := rfl
@[simp] theorem State.setInput_ip (s : State) (cs : List Byte) : (s.setInput cs).ip = s.ip := rfl
@[simp] theorem State.setInput_sp (s : State) (cs : List Byte) : (s.setInput cs).sp = s.sp := rfl
@[simp] theorem State.setInput_device (s : State) (cs : List Byte) : (s.setInput cs).device = s.device := rfl
@[simp] theorem State.setInput_status (s : State) (cs : List Byte) : (s.setInput cs).status = s.status := rfl
@[simp] theorem State.setInput_fault (s : State) (cs : List Byte) : (s.setInput cs).fault = s.fault := rfl
@[simp] theorem State.setInput_incidents (s : State) (cs : List Byte) :
    (s.setInput cs).incidents = s.incidents := rfl
@[simp] theorem State.setInput_mem (s : State) (cs : List Byte) : (s.setInput cs).mem = s.mem := rfl
@[simp] theorem State.setInput_prog (s : State) (cs : List Byte) : (s.setInput cs).prog = s.prog := rfl
@[simp] theorem State.setInput_memSize (s : State) (cs : List Byte) :
    (s.setInput cs).memSize = s.memSize := rfl
@[simp] theorem State.setInput_opcodeMap (s : State) (cs : List Byte) :
    (s.setInput cs).opcodeMap = s.opcodeMap := rfl
@[simp] theorem State.setInput_eofSentinel (s : State) (cs : List Byte) :
    (s.setInput cs).eofSentinel = s.eofSentinel := rfl
@[simp] theorem State.setInput_input (s : State) (cs : List Byte) : (s.setInput cs).input = cs := rfl
@[simp] theorem State.setInput_inputClosed (s : State) (cs : List Byte) :
    (s.setInput cs).inputClosed = s.inputClosed := rfl
@[simp] theorem State.setInput_output (s : State) (cs : List Byte) : (s.setInput cs).output = s.output := rfl
@[simp] theorem State.setInput_hostActions (s : State) (cs : List Byte) :
    (s.setInput cs).hostActions = s.hostActions := rfl

end Sys2Proof.Machine
end

