-- ==== Sys2Proof/Laws/Ops.lean ====
section
/-! SUPPORT. One lemma per shared operation that says all it can do, so that a proof cites it instead of unfolding the
operation: the checked accesses, the push, the device transactions, words over bytes, and the fetch. -/

namespace Sys2Proof.Machine

/-! ## Arithmetic -/

@[simp] theorem wrap16_toNat (v : Nat) : (wrap16 v).toNat = v % 65536 := by
  simp [wrap16]

@[simp] theorem zext16_toNat (b : Byte) : (zext16 b).toNat = b.toNat := by
  have := b.isLt
  simp [zext16]
  omega

@[simp] theorem wrap16_toNat_self (w : Word) : wrap16 w.toNat = w := by
  simp [wrap16]

@[simp] theorem extend_toNat (w : Word) : (w.setWidth 17).toNat = w.toNat := by
  have := w.isLt
  simp
  omega

/-! ## Words over bytes -/

@[simp] theorem State.setSp_readByte (s : State) (v : Word) (a : Nat) : (s.setSp v).readByte a = s.readByte a := rfl

@[simp] theorem State.advance_readByte (s : State) (n a : Nat) : (s.advance n).readByte a = s.readByte a := rfl

/-- A word write touches its two bytes only (spec/20_memory.md R33). -/
theorem State.readByte_writeWord_other {s : State} {a b : Nat} {v : Word} (h : b ≠ a) (h' : b ≠ a + 1) :
    (s.writeWord a v).readByte b = s.readByte b := by
  simp only [State.readByte, State.writeWord_mem, Memory.readByte_writeByte_other _ _ h',
    Memory.readByte_writeByte_other _ _ h]

/-- The low byte lands at the address. -/
theorem State.readByte_writeWord_low {s : State} (hwf : Memory.wf s.mem = true) (a : Nat) (v : Word) :
    (s.writeWord a v).readByte a = loByte v := by
  simp only [State.readByte, State.writeWord_mem, Memory.readByte_writeByte_other _ _ (Nat.succ_ne_self a).symm,
    Memory.readByte_writeByte_same hwf]

/-- The high byte lands at the next address. -/
theorem State.readByte_writeWord_high {s : State} (hwf : Memory.wf s.mem = true) (a : Nat) (v : Word) :
    (s.writeWord a v).readByte (a + 1) = hiByte v := by
  simp only [State.readByte, State.writeWord_mem, Memory.readByte_writeByte_same (Memory.wf_writeByte hwf _ _)]

/-- A word read after a word write to the same address gives the word (R45). -/
theorem State.readWord_writeWord {s : State} (hwf : Memory.wf s.mem = true) (a : Nat) (v : Word) :
    (s.writeWord a v).readWord a = v := by
  simp only [State.readWord, State.readByte_writeWord_low hwf, State.readByte_writeWord_high hwf,
    wordOfBytes_loByte_hiByte]

theorem State.writeWord_memCanonical {s : State} (hwf : Memory.wf s.mem = true) (a : Nat) (v : Word) :
    Memory.wf (s.writeWord a v).mem = true :=
  Memory.wf_writeByte (Memory.wf_writeByte hwf _ _) _ _

theorem State.writeWord_memWithin {s : State} {a : Nat} (h : Memory.within s.memSize s.mem = true)
    (ha : s.InBounds a) (v : Word) : Memory.within s.memSize (s.writeWord a v).mem = true :=
  Memory.within_writeByte _ ha (Memory.within_writeByte _ (Nat.lt_of_succ_lt ha) h)

/-! ## Checked accesses -/

theorem withAddress_inBounds {a : Word} {s : State} {k : Result} (h : s.InBounds a.toNat) :
    withAddress a s k = k := if_pos h

theorem withAddress_outOfBounds {a : Word} {s : State} {k : Result} (h : ¬ s.InBounds a.toNat) :
    withAddress a s k = raiseFatal .outOfBounds (a.setWidth 17) s := if_neg h

theorem withOperand_inBounds {a : Word} {s : State} {k : Word → Result} (h : s.InBounds a.toNat) :
    withOperand a s k = k (s.readWord a.toNat) := if_pos h

theorem withOperand_outOfBounds {a : Word} {s : State} {k : Word → Result} (h : ¬ s.InBounds a.toNat) :
    withOperand a s k = raiseFatal .outOfBounds (a.setWidth 17) s := if_neg h

/-- A divisor's three cases: it is there and nonzero, it is zero, or its word is out of bounds. -/
theorem withDivisor_cases (a : Word) (s : State) (k : Word → Result) :
    (s.InBounds a.toNat ∧ s.readWord a.toNat ≠ 0 ∧ withDivisor a s k = k (s.readWord a.toNat)) ∨
    (s.InBounds a.toNat ∧ s.readWord a.toNat = 0 ∧
      withDivisor a s k = raiseFatal .divideByZero (a.setWidth 17) s) ∨
    (¬ s.InBounds a.toNat ∧ withDivisor a s k = raiseFatal .outOfBounds (a.setWidth 17) s) := by
  by_cases hb : s.InBounds a.toNat
  · by_cases hm : s.readWord a.toNat = 0
    · exact .inr (.inl ⟨hb, hm, by simp only [withDivisor, withOperand_inBounds hb, if_pos hm]⟩)
    · exact .inl ⟨hb, hm, by simp only [withDivisor, withOperand_inBounds hb, if_neg hm]⟩
  · exact .inr (.inr ⟨hb, withOperand_outOfBounds hb⟩)

/-- A push's two cases (spec/41_stack.md R72). -/
theorem pushWord_cases (v : Word) (n : Nat) (s : State) :
    (s.InBounds (s.sp.toNat + 1) ∧ pushWord v n s =
      .next (((s.setSp (wrap16 (s.sp.toNat + 1))).writeWord (s.sp.toNat + 1) v).advance n)) ∨
    (¬ s.InBounds (s.sp.toNat + 1) ∧
      pushWord v n s = raiseFatal .stackOverflow (BitVec.ofNat 17 (s.sp.toNat + 1)) s) := by
  by_cases hb : s.InBounds (s.sp.toNat + 1)
  · exact .inl ⟨hb, if_pos hb⟩
  · exact .inr ⟨hb, if_neg hb⟩

/-! ## Devices -/

theorem deviceAt_unknown {id : Byte} (h : id ≠ 0) : deviceAt id = none := if_neg h

theorem devWrite_console {s : State} (h : s.device = 0) (v : Word) : devWrite s.device v s = s.emit v := by
  rw [h]
  rfl

theorem devWrite_unknown {id : Byte} (h : id ≠ 0) (v : Word) (s : State) :
    devWrite id v s = s.report .unknownDeviceWrite id := by
  simp [devWrite, deviceAt_unknown h]

theorem devRead_unknown {id : Byte} (h : id ≠ 0) (s : State) :
    devRead id s = some (0x0000, s.report .unknownDeviceRead id) := by
  simp [devRead, deviceAt_unknown h]

theorem devRead_byte {s : State} {c : Byte} {cs : List Byte} (h : s.device = 0) (hi : s.input = c :: cs) :
    devRead s.device s = some (zext16 c, s.setInput cs) := by
  simp [devRead, deviceAt, h, hi]

theorem devRead_endOfInput {s : State} (h : s.device = 0) (hi : s.input = []) (hc : s.inputClosed = true) :
    devRead s.device s = some (s.eofSentinel, s) := by
  simp [devRead, deviceAt, h, hi, hc]

theorem devRead_waits {s : State} (h : s.Waiting) : devRead s.device s = none := by
  simp [devRead, deviceAt, h.1, h.2.1, h.2.2]

/-- A device read's four cases (spec/44_device_io.md R97, R98). -/
theorem devRead_cases (s : State) :
    (s.device ≠ 0 ∧ devRead s.device s = some (0x0000, s.report .unknownDeviceRead s.device)) ∨
    (s.device = 0 ∧ ∃ c cs, s.input = c :: cs ∧ devRead s.device s = some (zext16 c, s.setInput cs)) ∨
    (s.device = 0 ∧ s.input = [] ∧ s.inputClosed = true ∧ devRead s.device s = some (s.eofSentinel, s)) ∨
    (s.Waiting ∧ devRead s.device s = none) := by
  by_cases hd : s.device = 0
  · cases hi : s.input with
    | cons c cs => exact .inr (.inl ⟨hd, c, cs, rfl, devRead_byte hd hi⟩)
    | nil =>
      cases hc : s.inputClosed with
      | true => exact .inr (.inr (.inl ⟨hd, rfl, rfl, devRead_endOfInput hd hi hc⟩))
      | false => exact .inr (.inr (.inr ⟨⟨hd, hi, hc⟩, devRead_waits ⟨hd, hi, hc⟩⟩))
  · exact .inl ⟨hd, devRead_unknown hd s⟩

/-- A read that answers a value completes the RAW. -/
theorem execRaw_of_value {s t : State} {r : Word} (h : devRead s.device s = some (r, t)) :
    execRaw s = setAccNext r .f0 t := by
  simp only [execRaw, h]

/-- A read that waits leaves the move to the host. -/
theorem execRaw_waits {s : State} (h : s.Waiting) : execRaw s = .next s.hostActs := by
  simp only [execRaw, devRead_waits h]

/-- The host acts on its console only (D13). -/
theorem State.hostActs_core (s : State) :
    ∃ cs closed acts, s.hostActs = { s with input := cs, inputClosed := closed, hostActions := acts } := by
  unfold State.hostActs
  split
  · exact ⟨s.input, s.inputClosed, s.hostActions, rfl⟩
  · exact ⟨_, s.inputClosed, _, rfl⟩
  · exact ⟨s.input, _, _, rfl⟩

/-! ## Fetch -/

/-- The four answers of a fetch, each with what it says about the program at `ip` (spec/40_loop_and_control.md R62
to R64). -/
theorem fetch_cases (s : State) :
    (s.prog.length ≤ s.ip.toNat ∧ fetch s = .noByte) ∨
    (∃ op rest, s.bytesAtIp = op :: rest ∧ s.opcodeMap.opcodeOf op = none ∧ fetch s = .unknownOpcode op) ∨
    (∃ op rest m, s.bytesAtIp = op :: rest ∧ s.opcodeMap.opcodeOf op = some m ∧
      rest.length < m.format.operandSize ∧ fetch s = .truncated m) ∨
    (∃ op rest m i rest', s.bytesAtIp = op :: rest ∧ s.opcodeMap.opcodeOf op = some m ∧
      decodeOperands m rest = some (i, rest') ∧ fetch s = .instr i rest') := by
  have h := decode_cases s.opcodeMap s.bytesAtIp
  rw [State.bytesAtIp, List.drop_eq_nil_iff] at h
  exact h

end Sys2Proof.Machine
end

