-- ==== Sys2Proof/Laws/Alu.lean ====
section
/-! SUPPORT. The value of each arithmetic operation as the number the spec writes (spec/43_alu.md R83 to R90). -/

namespace Sys2Proof.Machine

theorem aluAdd_toNat (x m : Word) : (aluAdd x m).toNat = (x.toNat + m.toNat) % 65536 := wrap16_toNat _

theorem aluSub_toNat (x m : Word) : (aluSub x m).toNat = (x.toNat + 65536 - m.toNat) % 65536 := wrap16_toNat _

theorem aluMul_toNat (x m : Word) : (aluMul x m).toNat = (x.toNat * m.toNat) % 65536 := wrap16_toNat _

/-- No quotient can overflow (R86). -/
theorem aluDiv_toNat (x m : Word) : (aluDiv x m).toNat = x.toNat / m.toNat :=
  (wrap16_toNat _).trans (Nat.mod_eq_of_lt (Nat.lt_of_le_of_lt (Nat.div_le_self _ _) x.isLt))

theorem aluMod_toNat (x m : Word) : (aluMod x m).toNat = x.toNat % m.toNat :=
  (wrap16_toNat _).trans (Nat.mod_eq_of_lt (Nat.lt_of_le_of_lt (Nat.mod_le _ _) x.isLt))

theorem aluInc_toNat (x : Word) : (aluInc x).toNat = (x.toNat + 1) % 65536 := wrap16_toNat _

theorem aluDec_toNat (x : Word) : (aluDec x).toNat = (x.toNat + 65535) % 65536 := by
  rw [aluDec, wrap16_toNat, Nat.add_comm]

theorem aluNot_toNat (x : Word) : (aluNot x).toNat = 65535 - x.toNat := BitVec.toNat_not

end Sys2Proof.Machine
end

