-- ==== Sys2Proof/Laws/Launch.lean ====
section
/-! SUPPORT. Admission in numbers (spec/00_scope.md R5, R6). -/

namespace Sys2Proof.Machine

/-- The parameters are admitted exactly when each is in its range. -/
theorem paramsAdmitted_iff {prog : List Byte} {n : Nat} {om : OpcodeMap} {eof : Word} :
    paramsAdmitted prog n om eof = true ↔
      prog.length ≤ 65536 ∧ n ≤ 65536 ∧ om.injective = true ∧ 0x00FF < eof.toNat := by
  simp only [paramsAdmitted, Bool.and_eq_true, decide_eq_true_eq]
  exact Iff.rfl

/-- The same of a state. -/
theorem State.admitted_iff {s : State} :
    s.admitted = true ↔
      s.prog.length ≤ 65536 ∧ s.memSize ≤ 65536 ∧ s.opcodeMap.injective = true ∧ 0x00FF < s.eofSentinel.toNat :=
  paramsAdmitted_iff

/-- A launch is admitted when its parameters are and `MEM_INIT` is a memory of its size. -/
theorem launchAdmitted_iff {l : Launch} :
    launchAdmitted l = true ↔
      paramsAdmitted l.prog l.memSize l.opcodeMap l.eofSentinel = true ∧
        Memory.wf l.memInit = true ∧ Memory.within l.memSize l.memInit = true := by
  simp [launchAdmitted]

/-- `State.reset` is the reset of the bare launch. -/
theorem State.reset_eq_ofLaunch : State.reset = State.ofLaunch bareLaunch := rfl

end Sys2Proof.Machine
end

