-- ==== Sys2Proof/Laws/PerInstr.lean ====
section
/-! SUPPORT. The family OperandRoundTrip of LAWS.json: reading the operand bytes of an instruction under its own opcode
gives the instruction back and leaves what follows (spec/30_encoding.md R51, R52). -/

/-- The operand bytes of `i`, read under the opcode of `i`, give `i` and leave the bytes that follow. -/
def Sys2Proof.Laws.OperandRoundTrip.Statement (i : Sys2Proof.Instr) : Prop :=
  ∀ rest : List Sys2Proof.Byte,
    Sys2Proof.decodeOperands i.mnemonic (i.operandBytes ++ rest) = some (i, rest)

theorem Sys2Proof.Laws.OperandRoundTrip.nop :
    Sys2Proof.Laws.OperandRoundTrip.Statement (.nop) :=
  fun _ => rfl

theorem Sys2Proof.Laws.OperandRoundTrip.psh (v : Sys2Proof.Word) :
    Sys2Proof.Laws.OperandRoundTrip.Statement (.psh v) :=
  fun rest => Sys2Proof.takeWord_wordBytes _ _ rest

theorem Sys2Proof.Laws.OperandRoundTrip.pop :
    Sys2Proof.Laws.OperandRoundTrip.Statement (.pop) :=
  fun _ => rfl

theorem Sys2Proof.Laws.OperandRoundTrip.lsp (a : Sys2Proof.Word) :
    Sys2Proof.Laws.OperandRoundTrip.Statement (.lsp a) :=
  fun rest => Sys2Proof.takeWord_wordBytes _ _ rest

theorem Sys2Proof.Laws.OperandRoundTrip.ssp (a : Sys2Proof.Word) :
    Sys2Proof.Laws.OperandRoundTrip.Statement (.ssp a) :=
  fun rest => Sys2Proof.takeWord_wordBytes _ _ rest

theorem Sys2Proof.Laws.OperandRoundTrip.jmp (t : Sys2Proof.Word) :
    Sys2Proof.Laws.OperandRoundTrip.Statement (.jmp t) :=
  fun rest => Sys2Proof.takeWord_wordBytes _ _ rest

theorem Sys2Proof.Laws.OperandRoundTrip.jnz (t : Sys2Proof.Word) :
    Sys2Proof.Laws.OperandRoundTrip.Statement (.jnz t) :=
  fun rest => Sys2Proof.takeWord_wordBytes _ _ rest

theorem Sys2Proof.Laws.OperandRoundTrip.lca (a : Sys2Proof.Word) :
    Sys2Proof.Laws.OperandRoundTrip.Statement (.lca a) :=
  fun rest => Sys2Proof.takeWord_wordBytes _ _ rest

theorem Sys2Proof.Laws.OperandRoundTrip.sca (a : Sys2Proof.Word) :
    Sys2Proof.Laws.OperandRoundTrip.Statement (.sca a) :=
  fun rest => Sys2Proof.takeWord_wordBytes _ _ rest

theorem Sys2Proof.Laws.OperandRoundTrip.cmp (a1 : Sys2Proof.Word) (a2 : Sys2Proof.Word) :
    Sys2Proof.Laws.OperandRoundTrip.Statement (.cmp a1 a2) :=
  fun rest => by
    simp [Sys2Proof.decodeOperands, Sys2Proof.Instr.mnemonic, Sys2Proof.Instr.operandBytes]

theorem Sys2Proof.Laws.OperandRoundTrip.add (a : Sys2Proof.Word) :
    Sys2Proof.Laws.OperandRoundTrip.Statement (.add a) :=
  fun rest => Sys2Proof.takeWord_wordBytes _ _ rest

theorem Sys2Proof.Laws.OperandRoundTrip.sub (a : Sys2Proof.Word) :
    Sys2Proof.Laws.OperandRoundTrip.Statement (.sub a) :=
  fun rest => Sys2Proof.takeWord_wordBytes _ _ rest

theorem Sys2Proof.Laws.OperandRoundTrip.mul (a : Sys2Proof.Word) :
    Sys2Proof.Laws.OperandRoundTrip.Statement (.mul a) :=
  fun rest => Sys2Proof.takeWord_wordBytes _ _ rest

theorem Sys2Proof.Laws.OperandRoundTrip.div (a : Sys2Proof.Word) :
    Sys2Proof.Laws.OperandRoundTrip.Statement (.div a) :=
  fun rest => Sys2Proof.takeWord_wordBytes _ _ rest

theorem Sys2Proof.Laws.OperandRoundTrip.mod (a : Sys2Proof.Word) :
    Sys2Proof.Laws.OperandRoundTrip.Statement (.mod a) :=
  fun rest => Sys2Proof.takeWord_wordBytes _ _ rest

theorem Sys2Proof.Laws.OperandRoundTrip.waw :
    Sys2Proof.Laws.OperandRoundTrip.Statement (.waw) :=
  fun _ => rfl

theorem Sys2Proof.Laws.OperandRoundTrip.raw :
    Sys2Proof.Laws.OperandRoundTrip.Statement (.raw) :=
  fun _ => rfl

theorem Sys2Proof.Laws.OperandRoundTrip.sel (id : Sys2Proof.Byte) :
    Sys2Proof.Laws.OperandRoundTrip.Statement (.sel id) :=
  fun _ => rfl

theorem Sys2Proof.Laws.OperandRoundTrip.ldc (v : Sys2Proof.Word) :
    Sys2Proof.Laws.OperandRoundTrip.Statement (.ldc v) :=
  fun rest => Sys2Proof.takeWord_wordBytes _ _ rest

theorem Sys2Proof.Laws.OperandRoundTrip.inc :
    Sys2Proof.Laws.OperandRoundTrip.Statement (.inc) :=
  fun _ => rfl

theorem Sys2Proof.Laws.OperandRoundTrip.dec :
    Sys2Proof.Laws.OperandRoundTrip.Statement (.dec) :=
  fun _ => rfl

theorem Sys2Proof.Laws.OperandRoundTrip.not :
    Sys2Proof.Laws.OperandRoundTrip.Statement (.not) :=
  fun _ => rfl

theorem Sys2Proof.Laws.OperandRoundTrip.and (a : Sys2Proof.Word) :
    Sys2Proof.Laws.OperandRoundTrip.Statement (.and a) :=
  fun rest => Sys2Proof.takeWord_wordBytes _ _ rest

theorem Sys2Proof.Laws.OperandRoundTrip.bor (a : Sys2Proof.Word) :
    Sys2Proof.Laws.OperandRoundTrip.Statement (.bor a) :=
  fun rest => Sys2Proof.takeWord_wordBytes _ _ rest

theorem Sys2Proof.Laws.OperandRoundTrip.xor (a : Sys2Proof.Word) :
    Sys2Proof.Laws.OperandRoundTrip.Statement (.xor a) :=
  fun rest => Sys2Proof.takeWord_wordBytes _ _ rest

theorem Sys2Proof.Laws.OperandRoundTrip.pac :
    Sys2Proof.Laws.OperandRoundTrip.Statement (.pac) :=
  fun _ => rfl

theorem Sys2Proof.Laws.OperandRoundTrip.cma (a : Sys2Proof.Word) :
    Sys2Proof.Laws.OperandRoundTrip.Statement (.cma a) :=
  fun rest => Sys2Proof.takeWord_wordBytes _ _ rest

theorem Sys2Proof.Laws.OperandRoundTrip.hlt :
    Sys2Proof.Laws.OperandRoundTrip.Statement (.hlt) :=
  fun _ => rfl
end

