-- ==== Sys2Proof/Laws/Step.lean ====
section
/-! SUPPORT. What `exec` and `step` can do, said once: from `exec_cases` and `step_cases` every whole-machine claim is
derived. -/

namespace Sys2Proof.Machine

/-- What an instruction that raises no fatal fault does: its own effect on each part of the state, or none. A field
left out of an instance is a part the instruction leaves alone. -/
structure PlainEffect (i : Instr) (s t : State) : Prop where
  launch : SameLaunch s t := by exact ⟨rfl, rfl, rfl, rfl⟩
  fault : t.fault = s.fault := by rfl
  status : t.status = s.status ∨ (i = .hlt ∧ t.status = .halted) := by exact .inl rfl
  incidents : t.incidents = s.incidents ∨
    (i = .waw ∧ s.device ≠ 0 ∧ t.incidents = s.incidents ++ [⟨.unknownDeviceWrite, s.ip, s.device⟩]) ∨
    (i = .raw ∧ s.device ≠ 0 ∧ t.incidents = s.incidents ++ [⟨.unknownDeviceRead, s.ip, s.device⟩]) := by
    exact .inl rfl
  acc : t.acc = s.acc ∨ i.writesAcc = true := by exact .inl rfl
  sp : t.sp = s.sp ∨ i.writesSp = true := by exact .inl rfl
  device : t.device = s.device ∨ ∃ id, i = .sel id ∧ t.device = id := by exact .inl rfl
  output : t.output = s.output ∨ (i = .waw ∧ s.device = 0 ∧ t.output = s.output ++ [loByte s.acc]) := by
    exact .inl rfl
  memory : t.mem = s.mem ∨ ∃ a v, storeAddress i s = some a ∧ s.InBounds a ∧ t.mem = (s.writeWord a v).mem := by
    exact .inl rfl
  ip : t.ip = s.ip + BitVec.ofNat 17 i.length ∨
    (∃ d, (i = .jmp d ∨ i = .jnz d) ∧ t.ip = d.setWidth 17) ∨ (i = .raw ∧ s.Waiting ∧ t.ip = s.ip) := by
    exact .inl rfl

/-- An instruction raises the fatal fault the table `fatalCause` gives and does nothing else, or it answers a next
state with a plain effect. -/
def ExecAnswers (i : Instr) (s : State) : Prop :=
  (∃ k n, fatalCause i s = some (k, n) ∧ n ≤ 65536 ∧ exec i s = raiseFatal k (BitVec.ofNat 17 n) s) ∨
  (fatalCause i s = none ∧ ∃ t, exec i s = .next t ∧ PlainEffect i s t)

/-- An effect on `acc` and `ip` alone. -/
theorem plainEffect_setAcc {i : Instr} {f : Format} (hl : i.length = f.length) (hw : i.writesAcc = true)
    (v : Word) (s : State) : PlainEffect i s ((s.setAcc v).advance f.length) :=
  { acc := .inr hw, ip := .inl (by simp [hl]) }

theorem outOfBoundsAt_inBounds {s : State} {a : Word} (h : s.InBounds a.toNat) : outOfBoundsAt s a = none :=
  if_pos h

theorem outOfBoundsAt_outOfBounds {s : State} {a : Word} (h : ¬ s.InBounds a.toNat) :
    outOfBoundsAt s a = some (.outOfBounds, a.toNat) := if_neg h

/-- An instruction whose only check is its operand's address. -/
theorem execAnswers_withOperand {i : Instr} {s : State} {a : Word} {k : Word → State}
    (hc : fatalCause i s = outOfBoundsAt s a) (hx : exec i s = withOperand a s fun m => .next (k m))
    (hp : s.InBounds a.toNat → PlainEffect i s (k (s.readWord a.toNat))) : ExecAnswers i s := by
  by_cases hb : s.InBounds a.toNat
  · exact .inr ⟨by rw [hc, outOfBoundsAt_inBounds hb], _, by rw [hx, withOperand_inBounds hb], hp hb⟩
  · refine .inl ⟨.outOfBounds, a.toNat, by rw [hc, outOfBoundsAt_outOfBounds hb], by omega, ?_⟩
    rw [hx, withOperand_outOfBounds hb, BitVec.ofNat_toNat]

/-- An instruction that replaces `acc` by a function of the memory word at its operand. -/
theorem execAnswers_accOperand {i : Instr} {s : State} {a : Word} {g : Word → Word}
    (hc : fatalCause i s = outOfBoundsAt s a) (hx : exec i s = withOperand a s fun m => setAccNext (g m) .fw s)
    (hl : i.length = Format.fw.length) (hw : i.writesAcc = true) : ExecAnswers i s :=
  execAnswers_withOperand hc hx fun _ => plainEffect_setAcc hl hw _ _

/-- DIV and MOD: bounds, then the zero divisor (R107). -/
theorem execAnswers_divisor {i : Instr} {s : State} {a : Word} {g : Word → Word}
    (hc : fatalCause i s = (outOfBoundsAt s a).orElse fun _ =>
      if s.readWord a.toNat = 0 then some (.divideByZero, a.toNat) else none)
    (hx : exec i s = withDivisor a s fun m => setAccNext (g m) .fw s)
    (hl : i.length = Format.fw.length) (hw : i.writesAcc = true) : ExecAnswers i s := by
  rcases withDivisor_cases a s (fun m => setAccNext (g m) .fw s) with ⟨hb, hm, h⟩ | ⟨hb, hm, h⟩ | ⟨hb, h⟩
  · refine .inr ⟨?_, _, hx.trans h, plainEffect_setAcc hl hw _ _⟩
    rw [hc, outOfBoundsAt_inBounds hb, if_neg hm]
    rfl
  · refine .inl ⟨.divideByZero, a.toNat, ?_, by omega, by rw [hx, h, BitVec.ofNat_toNat]⟩
    rw [hc, outOfBoundsAt_inBounds hb, if_pos hm]
    rfl
  · refine .inl ⟨.outOfBounds, a.toNat, ?_, by omega, by rw [hx, h, BitVec.ofNat_toNat]⟩
    rw [hc, outOfBoundsAt_outOfBounds hb]
    rfl

/-- LCA and LSP: the word at the operand is written. -/
theorem execAnswers_store {i : Instr} {s : State} {a v : Word}
    (hc : fatalCause i s = outOfBoundsAt s a) (hx : exec i s = storeNext a v s)
    (hl : i.length = Format.fw.length) (hs : storeAddress i s = some a.toNat) : ExecAnswers i s := by
  refine execAnswers_withOperand (k := fun _ => (s.writeWord a.toNat v).advance Format.fw.length) hc hx fun hb => ?_
  exact { memory := .inr ⟨a.toNat, v, hs, hb, rfl⟩, ip := .inl (by simp [hl]) }

/-- PSH and PAC. -/
theorem execAnswers_push {i : Instr} {s : State} {v : Word} {n : Nat}
    (hc : fatalCause i s = if s.sp.toNat + 2 < s.memSize then none else some (.stackOverflow, s.sp.toNat + 1))
    (hx : exec i s = pushWord v n s) (hl : i.length = n) (hs : storeAddress i s = some (s.sp.toNat + 1))
    (hw : i.writesSp = true) : ExecAnswers i s := by
  rcases pushWord_cases v n s with ⟨hb, h⟩ | ⟨hb, h⟩
  · refine .inr ⟨by rw [hc, if_pos hb], _, hx.trans h, ?_⟩
    exact { sp := .inr hw, memory := .inr ⟨_, v, hs, hb, rfl⟩, ip := .inl (by simp [hl]) }
  · exact .inl ⟨.stackOverflow, s.sp.toNat + 1, by rw [hc, if_neg hb], by omega, hx.trans h⟩

/-- CMP: `a1` is checked before `a2` (R107). -/
theorem execAnswers_cmp (a1 a2 : Word) (s : State) : ExecAnswers (.cmp a1 a2) s := by
  by_cases h1 : s.InBounds a1.toNat
  · have hx : exec (.cmp a1 a2) s =
        withOperand a2 s fun m => setAccNext (compareResult (s.readWord a1.toNat) m) .fww s :=
      withOperand_inBounds (k := fun m1 => withOperand a2 s fun m2 => setAccNext (compareResult m1 m2) .fww s) h1
    refine execAnswers_withOperand (a := a2) ?_ hx fun _ => plainEffect_setAcc (f := .fww) rfl rfl _ _
    simp only [fatalCause, outOfBoundsAt_inBounds h1, Option.orElse_none]
  · refine .inl ⟨.outOfBounds, a1.toNat, ?_, by omega, ?_⟩
    · simp only [fatalCause, outOfBoundsAt_outOfBounds h1, Option.orElse_some]
    · rw [BitVec.ofNat_toNat]
      exact withOperand_outOfBounds
        (k := fun m1 => withOperand a2 s fun m2 => setAccNext (compareResult m1 m2) .fww s) h1

/-- RAW: a byte, end of input, an unknown device, or the wait. -/
theorem execAnswers_raw (s : State) : ExecAnswers .raw s := by
  rcases devRead_cases s with ⟨hd, h⟩ | ⟨hd, c, cs, hi, h⟩ | ⟨hd, hi, hcl, h⟩ | ⟨hw, -⟩
  · refine .inr ⟨rfl, _, execRaw_of_value h, ?_⟩
    exact { incidents := .inr (.inr ⟨rfl, hd, rfl⟩), acc := .inr rfl }
  · refine .inr ⟨rfl, _, execRaw_of_value h, ?_⟩
    exact { acc := .inr rfl }
  · exact .inr ⟨rfl, _, execRaw_of_value h, plainEffect_setAcc (f := .f0) rfl rfl _ _⟩
  · refine .inr ⟨rfl, s.hostActs, execRaw_waits hw, ?_⟩
    obtain ⟨cs, closed, acts, he⟩ := s.hostActs_core
    rw [he]
    exact { ip := .inr (.inr ⟨rfl, hw, rfl⟩) }

/-- WAW: a character, or an incident. -/
theorem execAnswers_waw (s : State) : ExecAnswers .waw s := by
  by_cases hd : s.device = 0
  · refine .inr ⟨rfl, (s.emit s.acc).advance 1, ?_, ?_⟩
    · rw [exec, execWaw, devWrite_console hd]
      rfl
    · exact { output := .inr ⟨rfl, hd, rfl⟩ }
  · refine .inr ⟨rfl, (s.report .unknownDeviceWrite s.device).advance 1, ?_, ?_⟩
    · rw [exec, execWaw, devWrite_unknown hd]
      rfl
    · exact { incidents := .inr (.inl ⟨rfl, hd, rfl⟩) }

/-- JNZ: taken or not (R69). -/
theorem execAnswers_jnz (d : Word) (s : State) : ExecAnswers (.jnz d) s := by
  have hx : exec (.jnz d) s = if s.accNonzero then .next (s.jumpTo d) else .next (s.advance Format.fw.length) := rfl
  by_cases h : s.accNonzero = true
  · refine .inr ⟨rfl, s.jumpTo d, hx.trans (if_pos h), ?_⟩
    exact { ip := .inr (.inl ⟨d, .inr rfl, rfl⟩) }
  · refine .inr ⟨rfl, s.advance Format.fw.length, hx.trans (if_neg h), ?_⟩
    exact {}

/-- What `exec` can do, for every instruction and state. -/
theorem exec_cases (i : Instr) (s : State) : ExecAnswers i s := by
  cases i with
  | nop =>
    exact .inr ⟨rfl, _, rfl, {}⟩
  | psh v => exact execAnswers_push (v := v) rfl rfl rfl rfl rfl
  | pop =>
    refine execAnswers_withOperand (a := s.sp)
      (k := fun m => ((s.setAcc m).setSp (wrap16 (65535 + s.sp.toNat))).advance Format.f0.length) rfl rfl fun _ => ?_
    exact { acc := .inr rfl, sp := .inr rfl }
  | lsp a => exact execAnswers_store (v := s.sp) rfl rfl rfl rfl
  | ssp a =>
    refine execAnswers_withOperand (a := a) (k := fun m => (s.setSp m).advance Format.fw.length) rfl rfl fun _ => ?_
    exact { sp := .inr rfl }
  | jmp d =>
    exact .inr ⟨rfl, _, rfl, { ip := .inr (.inl ⟨d, .inl rfl, rfl⟩) }⟩
  | jnz d => exact execAnswers_jnz d s
  | lca a => exact execAnswers_store (v := s.acc) rfl rfl rfl rfl
  | sca a => exact execAnswers_accOperand (g := fun m => m) rfl rfl rfl rfl
  | cmp a1 a2 => exact execAnswers_cmp a1 a2 s
  | add a => exact execAnswers_accOperand (g := aluAdd s.acc) rfl rfl rfl rfl
  | sub a => exact execAnswers_accOperand (g := aluSub s.acc) rfl rfl rfl rfl
  | mul a => exact execAnswers_accOperand (g := aluMul s.acc) rfl rfl rfl rfl
  | div a => exact execAnswers_divisor (g := aluDiv s.acc) rfl rfl rfl rfl
  | mod a => exact execAnswers_divisor (g := aluMod s.acc) rfl rfl rfl rfl
  | waw => exact execAnswers_waw s
  | raw => exact execAnswers_raw s
  | sel id =>
    exact .inr ⟨rfl, _, rfl, { device := .inr ⟨id, rfl, rfl⟩ }⟩
  | ldc v => exact .inr ⟨rfl, _, rfl, plainEffect_setAcc (f := .fw) rfl rfl _ _⟩
  | inc => exact .inr ⟨rfl, _, rfl, plainEffect_setAcc (f := .f0) rfl rfl _ _⟩
  | dec => exact .inr ⟨rfl, _, rfl, plainEffect_setAcc (f := .f0) rfl rfl _ _⟩
  | not => exact .inr ⟨rfl, _, rfl, plainEffect_setAcc (f := .f0) rfl rfl _ _⟩
  | and a => exact execAnswers_accOperand (g := fun m => s.acc &&& m) rfl rfl rfl rfl
  | bor a => exact execAnswers_accOperand (g := fun m => s.acc ||| m) rfl rfl rfl rfl
  | xor a => exact execAnswers_accOperand (g := fun m => s.acc ^^^ m) rfl rfl rfl rfl
  | pac => exact execAnswers_push (v := s.acc) rfl rfl rfl rfl rfl
  | cma a => exact execAnswers_accOperand (g := fun m => compareResult m s.acc) rfl rfl rfl rfl
  | hlt =>
    exact .inr ⟨rfl, _, rfl, { status := .inr ⟨rfl, rfl⟩ }⟩

/-- What a step that answers a next state did (R62): the program overran, the byte was unrecognized, or the
instruction read at `ip` was executed. -/
theorem step_cases {s t : State} (h : step s = .next t) :
    s.admitted = true ∧ s.status = .running ∧
    ((((s.prog.length ≤ s.ip.toNat ∧ fetch s = .noByte) ∨ ∃ m, fetch s = .truncated m) ∧
        t = s.faultWith .ipOverrun s.ip) ∨
      (∃ op, fetch s = .unknownOpcode op ∧ t = (s.report .unknownOpcode op).advance 1) ∨
      (∃ i rest, fetch s = .instr i rest ∧ exec i s = .next t)) := by
  unfold step at h
  by_cases ha : s.admitted = true
  · rw [if_pos ha] at h
    cases hs : s.status with
    | halted => rw [hs] at h; cases h
    | faulted => rw [hs] at h; cases h
    | running =>
      rw [hs] at h
      refine ⟨ha, rfl, ?_⟩
      rcases fetch_cases s with ⟨hp, hf⟩ | ⟨op, rest, -, -, hf⟩ | ⟨op, rest, m, -, -, -, hf⟩ |
        ⟨op, rest, m, i, rest', -, -, -, hf⟩ <;> rw [hf] at h
      · cases h
        exact .inl ⟨.inl ⟨hp, hf⟩, rfl⟩
      · cases h
        exact .inr (.inl ⟨op, hf, rfl⟩)
      · cases h
        exact .inl ⟨.inr ⟨m, hf⟩, rfl⟩
      · exact .inr (.inr ⟨i, rest', hf, h⟩)
  · rw [if_neg ha] at h
    cases h

end Sys2Proof.Machine
end

