-- ==== Sys2Proof/Tests/Slice0.lean ====
section
/-! SUPPORT. The model's own tests. Every expected value is taken from spec/opcode_table.json, from the worked
examples and vectors of spec/95_test_vectors.md (named by their ids), or from the rule cited; and the witnesses:
for each obligation with hypotheses, concrete states that meet them, clause by clause at the boundaries. -/

namespace Sys2Proof.Tests

open Sys2Proof Sys2Proof.Machine

/-! ## Helpers -/

/-- The next state of an answer, if it is one. -/
def after : Result → Option State
  | .next t    => some t
  | .fault _   => none
  | .refused _ => none

theorem next_of_after {r : Result} {t : State} (h : after r = some t) : r = .next t := by
  cases r <;> simp_all [after]

/-- The state "before" of the vectors (spec/95_test_vectors.md, section 2): an instruction at `ip = 0x0010` of a
program of `progLen` bytes. -/
def vectorState (bytes : List Byte) (progLen memSize : Nat) (acc sp : Word) (device : Byte) : State :=
  { State.reset with
    prog := List.replicate 16 0x00 ++ bytes ++ List.replicate (progLen - 16 - bytes.length) 0x00
    ip := 0x10, memSize := memSize, acc := acc, sp := sp, device := device }

/-- A state with a memory of 16 bytes and nothing in the program. -/
def small (acc sp : Word) (device : Byte) (mem : List Host.Cell) : State :=
  { State.reset with memSize := 16, acc := acc, sp := sp, device := device, mem := mem }

/-- The opcode map that counts down from 0xFF in table order: another admitted `OPCODE_MAP` (R5, R56). -/
def downMap : OpcodeMap where
  nop := 0xFF
  psh := 0xFE
  pop := 0xFD
  lsp := 0xFC
  ssp := 0xFB
  jmp := 0xFA
  jnz := 0xF9
  lca := 0xF8
  sca := 0xF7
  cmp := 0xF6
  add := 0xF5
  sub := 0xF4
  mul := 0xF3
  div := 0xF2
  mod := 0xF1
  waw := 0xF0
  raw := 0xEF
  sel := 0xEE
  ldc := 0xED
  inc := 0xEC
  dec := 0xEB
  not := 0xEA
  and := 0xE9
  bor := 0xE8
  xor := 0xE7
  pac := 0xE6
  cma := 0xE5
  hlt := 0xE4

/-- A map that gives NOP the byte of HLT: not injective. -/
def clashMap : OpcodeMap := { OpcodeMap.default with nop := 0x1B }

/-! ## WellFormed: each check refuses an ill-formed term (R60) -/

/-- Wrong operand count, in each format. -/
theorem test_wellFormed_count :
    WrittenInstr.wellFormed ⟨.hlt, [0]⟩ = false ∧ WrittenInstr.wellFormed ⟨.sel, []⟩ = false ∧
    WrittenInstr.wellFormed ⟨.sel, [0, 0]⟩ = false ∧ WrittenInstr.wellFormed ⟨.add, []⟩ = false ∧
    WrittenInstr.wellFormed ⟨.add, [0, 0]⟩ = false ∧ WrittenInstr.wellFormed ⟨.cmp, [0]⟩ = false ∧
    WrittenInstr.wellFormed ⟨.cmp, [0, 0, 0]⟩ = false := by decide

/-- A byte operand above 255 (`SEL 256` is the spec's own case), and the greatest that is admitted. -/
theorem test_wellFormed_byte :
    WrittenInstr.wellFormed ⟨.sel, [256]⟩ = false ∧ WrittenInstr.wellFormed ⟨.sel, [255]⟩ = true := by decide

/-- A word operand above 65535. -/
theorem test_wellFormed_word :
    WrittenInstr.wellFormed ⟨.ldc, [65536]⟩ = false ∧ WrittenInstr.wellFormed ⟨.ldc, [65535]⟩ = true := by decide

/-- Either word of CMP above 65535. -/
theorem test_wellFormed_words :
    WrittenInstr.wellFormed ⟨.cmp, [65536, 0]⟩ = false ∧ WrittenInstr.wellFormed ⟨.cmp, [0, 65536]⟩ = false ∧
    WrittenInstr.wellFormed ⟨.cmp, [65535, 65535]⟩ = true := by decide

/-- The checks on a launch (R6): a map that is not injective, a sentinel of one byte, a `MEM_INIT` that does not
lie within `MEM_SIZE` or is not canonical; and the other map is admitted. -/
theorem test_launch_checks :
    after (launch { bareLaunch with opcodeMap := clashMap }) = none ∧
    after (launch { bareLaunch with eofSentinel := 0x00FF }) = none ∧
    after (launch { bareLaunch with memSize := 65537 }) = none ∧
    after (launch { bareLaunch with memSize := 2, memInit := [(2, 0x01)] }) = none ∧
    after (launch { bareLaunch with memInit := [(1, 0x01), (0, 0x01)] }) = none ∧
    after (launch { bareLaunch with memInit := [(1, 0x00)] }) = none ∧
    (after (launch { bareLaunch with opcodeMap := downMap, eofSentinel := 0x0100 })).isSome = true := by decide

/-! ## Decode: every constructor, from a word written out from its row of spec/opcode_table.json -/

theorem test_decode_nop : decodeTableWord 8 0x00 = some .nop := by decide
theorem test_decode_psh : decodeTableWord 24 0xBEEF01 = some (.psh 0xBEEF) := by decide
theorem test_decode_pop : decodeTableWord 8 0x02 = some .pop := by decide
theorem test_decode_lsp : decodeTableWord 24 0x123403 = some (.lsp 0x1234) := by decide
theorem test_decode_ssp : decodeTableWord 24 0x80FF04 = some (.ssp 0x80FF) := by decide
theorem test_decode_jmp : decodeTableWord 24 0x123405 = some (.jmp 0x1234) := by decide
theorem test_decode_jnz : decodeTableWord 24 0xFF0006 = some (.jnz 0xFF00) := by decide
theorem test_decode_lca : decodeTableWord 24 0x00FF07 = some (.lca 0x00FF) := by decide
theorem test_decode_sca : decodeTableWord 24 0x010008 = some (.sca 0x0100) := by decide
theorem test_decode_cmp : decodeTableWord 40 0xA0B0010209 = some (.cmp 0x0102 0xA0B0) := by decide
theorem test_decode_add : decodeTableWord 24 0x00080A = some (.add 0x0008) := by decide
theorem test_decode_sub : decodeTableWord 24 0x08000B = some (.sub 0x0800) := by decide
theorem test_decode_mul : decodeTableWord 24 0xFFFF0C = some (.mul 0xFFFF) := by decide
theorem test_decode_div : decodeTableWord 24 0x7FFE0D = some (.div 0x7FFE) := by decide
theorem test_decode_mod : decodeTableWord 24 0x01020E = some (.mod 0x0102) := by decide
theorem test_decode_waw : decodeTableWord 8 0x0F = some .waw := by decide
theorem test_decode_raw : decodeTableWord 8 0x10 = some .raw := by decide
theorem test_decode_sel : decodeTableWord 16 0x0511 = some (.sel 0x05) := by decide
theorem test_decode_ldc : decodeTableWord 24 0x800012 = some (.ldc 0x8000) := by decide
theorem test_decode_inc : decodeTableWord 8 0x13 = some .inc := by decide
theorem test_decode_dec : decodeTableWord 8 0x14 = some .dec := by decide
theorem test_decode_not : decodeTableWord 8 0x15 = some .not := by decide
theorem test_decode_and : decodeTableWord 24 0xABCD16 = some (.and 0xABCD) := by decide
theorem test_decode_bor : decodeTableWord 24 0x0F0017 = some (.bor 0x0F00) := by decide
theorem test_decode_xor : decodeTableWord 24 0x00F018 = some (.xor 0x00F0) := by decide
theorem test_decode_pac : decodeTableWord 8 0x19 = some .pac := by decide
theorem test_decode_cma : decodeTableWord 24 0x55AA1A = some (.cma 0x55AA) := by decide
theorem test_decode_hlt : decodeTableWord 8 0x1B = some .hlt := by decide

/-- W1: the word operand's round trip at the values the spec lists. -/
theorem test_decode_w1 :
    [0x0000, 0x0001, 0x00FF, 0x0100, 0x1234, 0x8000, 0xFFFF].map wordBytes =
      [[0x00, 0x00], [0x01, 0x00], [0xFF, 0x00], [0x00, 0x01], [0x34, 0x12], [0x00, 0x80], [0xFF, 0xFF]] := by
  decide

/-- An unrecognized byte and operands that are not all there are rejected by name (R55, R64). -/
theorem test_decode_rejects :
    decode OpcodeMap.default [0x1C, 0x00] = .unknownOpcode 0x1C ∧
    decode OpcodeMap.default [0x12, 0x01] = .truncated .ldc ∧
    decode OpcodeMap.default [0x09, 0x00, 0x00, 0x02] = .truncated .cmp ∧
    decode OpcodeMap.default [0x11] = .truncated .sel ∧
    decode OpcodeMap.default [] = .noByte ∧
    decodeTableWord 8 0x1C = none := by decide

/-- Under another map only the opcode bytes change (spec/95_test_vectors.md, section 0). -/
theorem test_decode_other_map :
    decode downMap [0xFE, 0xEF, 0xBE] = .instr (.psh 0xBEEF) [] ∧
    decode downMap [0x01, 0xEF, 0xBE] = .unknownOpcode 0x01 := by decide

/-! ## Assembler and Program Builder (R59, R60) -/

/-- W11 and P1: the bytes of the source's end-to-end example. -/
theorem test_assemble_p1 :
    assemble OpcodeMap.default "SEL 0x00; LDC 0x0041; WAW; HLT".toList =
      some [0x11, 0x00, 0x12, 0x41, 0x00, 0x0F, 0x1B] := by decide

/-- A label is the program offset of its statement. -/
theorem test_assemble_label :
    assemble OpcodeMap.default "INC\nend: JMP end".toList = some [0x13, 0x05, 0x01, 0x00] := by decide

/-- What the assembler refuses: a number out of range, a wrong count, an unknown name. -/
theorem test_assemble_refuses :
    assemble OpcodeMap.default "SEL 256".toList = none ∧ assemble OpcodeMap.default "ADD".toList = none ∧
    assemble OpcodeMap.default "hlt".toList = none ∧ assemble OpcodeMap.default "JMP gone".toList = none := by decide

/-- The Program Builder's calls give the bytes of W11's `LDC 0x0041` and `SEL 0x00` (R59). -/
theorem test_builder :
    addWordParameter (addInstruction (addByteParameter (addInstruction [] 0x11) 0x00) 0x12) 0x0041 =
      [0x11, 0x00, 0x12, 0x41, 0x00] := by decide

/-! ## One step of each instruction, from the vectors of spec/95_test_vectors.md -/

/-- V-CTL-1: NOP. -/
theorem test_v_ctl_1 :
    after (step (vectorState [0x00] 64 16 0x1234 0x0005 0x03)) =
      some { vectorState [0x00] 64 16 0x1234 0x0005 0x03 with ip := 0x0011, acc := 0x1234 } := by decide

/-- V-CTL-2: JMP 0x0030. -/
theorem test_v_ctl_2 :
    after (step (vectorState [0x05, 0x30, 0x00] 64 16 0x0000 0x0000 0x00)) =
      some { vectorState [0x05, 0x30, 0x00] 64 16 0x0000 0x0000 0x00 with ip := 0x0030, acc := 0x0000 } := by decide

/-- V-CTL-4: JMP 0xFFFF. -/
theorem test_v_ctl_4 :
    after (step (vectorState [0x05, 0xFF, 0xFF] 64 16 0x0000 0x0000 0x00)) =
      some { vectorState [0x05, 0xFF, 0xFF] 64 16 0x0000 0x0000 0x00 with ip := 0xFFFF, acc := 0x0000 } := by decide

/-- V-CTL-5: JNZ 0x0030. -/
theorem test_v_ctl_5 :
    after (step (vectorState [0x06, 0x30, 0x00] 64 16 0x0000 0x0000 0x00)) =
      some { vectorState [0x06, 0x30, 0x00] 64 16 0x0000 0x0000 0x00 with ip := 0x0013, acc := 0x0000 } := by decide

/-- V-CTL-6: JNZ 0x0030. -/
theorem test_v_ctl_6 :
    after (step (vectorState [0x06, 0x30, 0x00] 64 16 0x0001 0x0000 0x00)) =
      some { vectorState [0x06, 0x30, 0x00] 64 16 0x0001 0x0000 0x00 with ip := 0x0030, acc := 0x0001 } := by decide

/-- V-CTL-17: HLT. -/
theorem test_v_ctl_17 :
    after (step (vectorState [0x1B] 17 16 0x0000 0x0000 0x00)) =
      some { vectorState [0x1B] 17 16 0x0000 0x0000 0x00 with
        ip := 0x0011, acc := 0x0000, status := .halted } := by decide

/-- V-STK-3: PSH 0x0102. -/
theorem test_v_stk_3 :
    after (step (vectorState [0x01, 0x02, 0x01] 64 16 0x0000 0x000D 0x00)) =
      some { vectorState [0x01, 0x02, 0x01] 64 16 0x0000 0x000D 0x00 with
        ip := 0x0013, acc := 0x0000, sp := 0x000E, mem := [(0x000E, 0x02), (0x000F, 0x01)] } := by decide

/-- V-STK-6: PSH 0x0102. -/
theorem test_v_stk_6 :
    after (step (vectorState [0x01, 0x02, 0x01] 64 16 0x0000 0xFFFF 0x00)) =
      some { vectorState [0x01, 0x02, 0x01] 64 16 0x0000 0xFFFF 0x00 with
        status := .faulted, fault := some ⟨.stackOverflow, 0x10000⟩ } := by decide

/-- V-STK-10: POP. -/
theorem test_v_stk_10 :
    after (step { vectorState [0x02] 64 16 0x0000 0x0000 0x00 with mem := [(0x0000, 0x34), (0x0001, 0x12)] }) =
      some { vectorState [0x02] 64 16 0x0000 0x0000 0x00 with
        mem := [(0x0000, 0x34), (0x0001, 0x12)], ip := 0x0011, acc := 0x1234, sp := 0xFFFF } := by decide

/-- V-STK-12: POP. -/
theorem test_v_stk_12 :
    after (step (vectorState [0x02] 64 16 0x0000 0x000F 0x00)) =
      some { vectorState [0x02] 64 16 0x0000 0x000F 0x00 with
        status := .faulted, fault := some ⟨.outOfBounds, 0x000F⟩ } := by decide

/-- V-STK-14: LSP 0x0006. -/
theorem test_v_stk_14 :
    after (step (vectorState [0x03, 0x06, 0x00] 64 16 0x0000 0x0A0B 0x00)) =
      some { vectorState [0x03, 0x06, 0x00] 64 16 0x0000 0x0A0B 0x00 with
        ip := 0x0013, acc := 0x0000, mem := [(0x0006, 0x0B), (0x0007, 0x0A)] } := by decide

/-- V-STK-15: LSP 0x000F. -/
theorem test_v_stk_15 :
    after (step (vectorState [0x03, 0x0F, 0x00] 64 16 0x0000 0x0A0B 0x00)) =
      some { vectorState [0x03, 0x0F, 0x00] 64 16 0x0000 0x0A0B 0x00 with
        status := .faulted, fault := some ⟨.outOfBounds, 0x000F⟩ } := by decide

/-- V-STK-17: SSP 0x0003. -/
theorem test_v_stk_17 :
    after (step { vectorState [0x04, 0x03, 0x00] 64 16 0x0000 0x0000 0x00 with
        mem := [(0x0003, 0xFF), (0x0004, 0xFF)] }) =
      some { vectorState [0x04, 0x03, 0x00] 64 16 0x0000 0x0000 0x00 with
        mem := [(0x0003, 0xFF), (0x0004, 0xFF)], ip := 0x0013, acc := 0x0000, sp := 0xFFFF } := by decide

/-- V-STK-18: SSP 0x000F. -/
theorem test_v_stk_18 :
    after (step (vectorState [0x04, 0x0F, 0x00] 64 16 0x0000 0x0000 0x00)) =
      some { vectorState [0x04, 0x0F, 0x00] 64 16 0x0000 0x0000 0x00 with
        status := .faulted, fault := some ⟨.outOfBounds, 0x000F⟩ } := by decide

/-- V-STK-19: PAC. -/
theorem test_v_stk_19 :
    after (step (vectorState [0x19] 64 16 0xCAFE 0x0004 0x00)) =
      some { vectorState [0x19] 64 16 0xCAFE 0x0004 0x00 with
        ip := 0x0011, acc := 0xCAFE, sp := 0x0005, mem := [(0x0005, 0xFE), (0x0006, 0xCA)] } := by decide

/-- V-STK-20: PAC. -/
theorem test_v_stk_20 :
    after (step (vectorState [0x19] 64 16 0xCAFE 0x000E 0x00)) =
      some { vectorState [0x19] 64 16 0xCAFE 0x000E 0x00 with
        status := .faulted, fault := some ⟨.stackOverflow, 0x000F⟩ } := by decide

/-- V-MEM-2: LCA 0x0007. -/
theorem test_v_mem_2 :
    after (step (vectorState [0x07, 0x07, 0x00] 64 16 0x1234 0x0000 0x00)) =
      some { vectorState [0x07, 0x07, 0x00] 64 16 0x1234 0x0000 0x00 with
        ip := 0x0013, acc := 0x1234, mem := [(0x0007, 0x34), (0x0008, 0x12)] } := by decide

/-- V-MEM-5: LCA 0xFFFF. -/
theorem test_v_mem_5 :
    after (step (vectorState [0x07, 0xFF, 0xFF] 64 16 0x1234 0x0000 0x00)) =
      some { vectorState [0x07, 0xFF, 0xFF] 64 16 0x1234 0x0000 0x00 with
        status := .faulted, fault := some ⟨.outOfBounds, 0xFFFF⟩ } := by decide

/-- V-MEM-6: SCA 0x0005. -/
theorem test_v_mem_6 :
    after (step { vectorState [0x08, 0x05, 0x00] 64 16 0x0000 0x0000 0x00 with
        mem := [(0x0005, 0x78), (0x0006, 0x56)] }) =
      some { vectorState [0x08, 0x05, 0x00] 64 16 0x0000 0x0000 0x00 with
        mem := [(0x0005, 0x78), (0x0006, 0x56)], ip := 0x0013, acc := 0x5678 } := by decide

/-- V-MEM-7: SCA 0x000F. -/
theorem test_v_mem_7 :
    after (step (vectorState [0x08, 0x0F, 0x00] 64 16 0x9999 0x0000 0x00)) =
      some { vectorState [0x08, 0x0F, 0x00] 64 16 0x9999 0x0000 0x00 with
        status := .faulted, fault := some ⟨.outOfBounds, 0x000F⟩ } := by decide

/-- V-MEM-9: CMP 0x0000, 0x0004. -/
theorem test_v_mem_9 :
    after (step { vectorState [0x09, 0x00, 0x00, 0x04, 0x00] 64 16 0x4444 0x0000 0x00 with
        mem := [(0x0000, 0x11), (0x0001, 0x22), (0x0004, 0x11), (0x0005, 0x23)] }) =
      some { vectorState [0x09, 0x00, 0x00, 0x04, 0x00] 64 16 0x4444 0x0000 0x00 with
        mem := [(0x0000, 0x11), (0x0001, 0x22), (0x0004, 0x11), (0x0005, 0x23)], ip := 0x0015, acc := 0x0000 } := by decide

/-- V-MEM-13: CMP 0x00FF, 0x000F. -/
theorem test_v_mem_13 :
    after (step (vectorState [0x09, 0xFF, 0x00, 0x0F, 0x00] 64 16 0x0000 0x0000 0x00)) =
      some { vectorState [0x09, 0xFF, 0x00, 0x0F, 0x00] 64 16 0x0000 0x0000 0x00 with
        status := .faulted, fault := some ⟨.outOfBounds, 0x00FF⟩ } := by decide

/-- V-MEM-14: LDC 0xFFFF. -/
theorem test_v_mem_14 :
    after (step (vectorState [0x12, 0xFF, 0xFF] 64 16 0x0000 0x0000 0x00)) =
      some { vectorState [0x12, 0xFF, 0xFF] 64 16 0x0000 0x0000 0x00 with ip := 0x0013, acc := 0xFFFF } := by decide

/-- V-MEM-17: CMA 0x0008. -/
theorem test_v_mem_17 :
    after (step { vectorState [0x1A, 0x08, 0x00] 64 16 0xFF00 0x0000 0x00 with mem := [(0x0008, 0xFF)] }) =
      some { vectorState [0x1A, 0x08, 0x00] 64 16 0xFF00 0x0000 0x00 with
        mem := [(0x0008, 0xFF)], ip := 0x0013, acc := 0x0000 } := by decide

/-- V-MEM-18: CMA 0x000F. -/
theorem test_v_mem_18 :
    after (step (vectorState [0x1A, 0x0F, 0x00] 64 16 0x0000 0x0000 0x00)) =
      some { vectorState [0x1A, 0x0F, 0x00] 64 16 0x0000 0x0000 0x00 with
        status := .faulted, fault := some ⟨.outOfBounds, 0x000F⟩ } := by decide

/-- V-ALU-2: ADD 0x0008. -/
theorem test_v_alu_2 :
    after (step { vectorState [0x0A, 0x08, 0x00] 64 16 0xFFFF 0x0000 0x00 with mem := [(0x0008, 0x01)] }) =
      some { vectorState [0x0A, 0x08, 0x00] 64 16 0xFFFF 0x0000 0x00 with
        mem := [(0x0008, 0x01)], ip := 0x0013, acc := 0x0000 } := by decide

/-- V-ALU-4: ADD 0x000F. -/
theorem test_v_alu_4 :
    after (step (vectorState [0x0A, 0x0F, 0x00] 64 16 0x0001 0x0000 0x00)) =
      some { vectorState [0x0A, 0x0F, 0x00] 64 16 0x0001 0x0000 0x00 with
        status := .faulted, fault := some ⟨.outOfBounds, 0x000F⟩ } := by decide

/-- V-ALU-6: SUB 0x0008. -/
theorem test_v_alu_6 :
    after (step { vectorState [0x0B, 0x08, 0x00] 64 16 0x0000 0x0000 0x00 with mem := [(0x0008, 0x01)] }) =
      some { vectorState [0x0B, 0x08, 0x00] 64 16 0x0000 0x0000 0x00 with
        mem := [(0x0008, 0x01)], ip := 0x0013, acc := 0xFFFF } := by decide

/-- V-ALU-34: SUB 0x000F. -/
theorem test_v_alu_34 :
    after (step (vectorState [0x0B, 0x0F, 0x00] 64 16 0x0000 0x0000 0x00)) =
      some { vectorState [0x0B, 0x0F, 0x00] 64 16 0x0000 0x0000 0x00 with
        status := .faulted, fault := some ⟨.outOfBounds, 0x000F⟩ } := by decide

/-- V-ALU-10: MUL 0x0008. -/
theorem test_v_alu_10 :
    after (step { vectorState [0x0C, 0x08, 0x00] 64 16 0xFFFF 0x0000 0x00 with
        mem := [(0x0008, 0xFF), (0x0009, 0xFF)] }) =
      some { vectorState [0x0C, 0x08, 0x00] 64 16 0xFFFF 0x0000 0x00 with
        mem := [(0x0008, 0xFF), (0x0009, 0xFF)], ip := 0x0013, acc := 0x0001 } := by decide

/-- V-ALU-35: MUL 0x000F. -/
theorem test_v_alu_35 :
    after (step (vectorState [0x0C, 0x0F, 0x00] 64 16 0x0000 0x0000 0x00)) =
      some { vectorState [0x0C, 0x0F, 0x00] 64 16 0x0000 0x0000 0x00 with
        status := .faulted, fault := some ⟨.outOfBounds, 0x000F⟩ } := by decide

/-- V-ALU-13: DIV 0x0008. -/
theorem test_v_alu_13 :
    after (step { vectorState [0x0D, 0x08, 0x00] 64 16 0xFFFF 0x0000 0x00 with mem := [(0x0008, 0x02)] }) =
      some { vectorState [0x0D, 0x08, 0x00] 64 16 0xFFFF 0x0000 0x00 with
        mem := [(0x0008, 0x02)], ip := 0x0013, acc := 0x7FFF } := by decide

/-- V-ALU-16: DIV 0x000F. -/
theorem test_v_alu_16 :
    after (step (vectorState [0x0D, 0x0F, 0x00] 64 16 0x0005 0x0000 0x00)) =
      some { vectorState [0x0D, 0x0F, 0x00] 64 16 0x0005 0x0000 0x00 with
        status := .faulted, fault := some ⟨.outOfBounds, 0x000F⟩ } := by decide

/-- V-ALU-18: MOD 0x0008. -/
theorem test_v_alu_18 :
    after (step { vectorState [0x0E, 0x08, 0x00] 64 16 0x8000 0x0000 0x00 with mem := [(0x0008, 0x03)] }) =
      some { vectorState [0x0E, 0x08, 0x00] 64 16 0x8000 0x0000 0x00 with
        mem := [(0x0008, 0x03)], ip := 0x0013, acc := 0x0002 } := by decide

/-- V-ALU-20: MOD 0x0008. -/
theorem test_v_alu_20 :
    after (step { vectorState [0x0E, 0x08, 0x00] 64 16 0x0005 0x0000 0x00 with mem := [] }) =
      some { vectorState [0x0E, 0x08, 0x00] 64 16 0x0005 0x0000 0x00 with
        mem := [], status := .faulted, fault := some ⟨.divideByZero, 0x0008⟩ } := by decide

/-- V-ALU-22: INC. -/
theorem test_v_alu_22 :
    after (step (vectorState [0x13] 64 16 0xFFFF 0x0000 0x00)) =
      some { vectorState [0x13] 64 16 0xFFFF 0x0000 0x00 with ip := 0x0011, acc := 0x0000 } := by decide

/-- V-ALU-23: DEC. -/
theorem test_v_alu_23 :
    after (step (vectorState [0x14] 64 16 0x0000 0x0000 0x00)) =
      some { vectorState [0x14] 64 16 0x0000 0x0000 0x00 with ip := 0x0011, acc := 0xFFFF } := by decide

/-- V-ALU-25: NOT. -/
theorem test_v_alu_25 :
    after (step (vectorState [0x15] 64 16 0x00FF 0x0000 0x00)) =
      some { vectorState [0x15] 64 16 0x00FF 0x0000 0x00 with ip := 0x0011, acc := 0xFF00 } := by decide

/-- V-ALU-27: AND 0x0008. -/
theorem test_v_alu_27 :
    after (step { vectorState [0x16, 0x08, 0x00] 64 16 0xF0F0 0x0000 0x00 with mem := [(0x0009, 0xFF)] }) =
      some { vectorState [0x16, 0x08, 0x00] 64 16 0xF0F0 0x0000 0x00 with
        mem := [(0x0009, 0xFF)], ip := 0x0013, acc := 0xF000 } := by decide

/-- V-ALU-31: AND 0x000F. -/
theorem test_v_alu_31 :
    after (step (vectorState [0x16, 0x0F, 0x00] 64 16 0xFFFF 0x0000 0x00)) =
      some { vectorState [0x16, 0x0F, 0x00] 64 16 0xFFFF 0x0000 0x00 with
        status := .faulted, fault := some ⟨.outOfBounds, 0x000F⟩ } := by decide

/-- V-ALU-28: BOR 0x0008. -/
theorem test_v_alu_28 :
    after (step { vectorState [0x17, 0x08, 0x00] 64 16 0xF0F0 0x0000 0x00 with mem := [(0x0009, 0x0F)] }) =
      some { vectorState [0x17, 0x08, 0x00] 64 16 0xF0F0 0x0000 0x00 with
        mem := [(0x0009, 0x0F)], ip := 0x0013, acc := 0xFFF0 } := by decide

/-- V-ALU-32: BOR 0x000F. -/
theorem test_v_alu_32 :
    after (step (vectorState [0x17, 0x0F, 0x00] 64 16 0x0000 0x0000 0x00)) =
      some { vectorState [0x17, 0x0F, 0x00] 64 16 0x0000 0x0000 0x00 with
        status := .faulted, fault := some ⟨.outOfBounds, 0x000F⟩ } := by decide

/-- V-ALU-29: XOR 0x0008. -/
theorem test_v_alu_29 :
    after (step { vectorState [0x18, 0x08, 0x00] 64 16 0xF0F0 0x0000 0x00 with mem := [(0x0009, 0xFF)] }) =
      some { vectorState [0x18, 0x08, 0x00] 64 16 0xF0F0 0x0000 0x00 with
        mem := [(0x0009, 0xFF)], ip := 0x0013, acc := 0x0FF0 } := by decide

/-- V-ALU-33: XOR 0x000F. -/
theorem test_v_alu_33 :
    after (step (vectorState [0x18, 0x0F, 0x00] 64 16 0x0000 0x0000 0x00)) =
      some { vectorState [0x18, 0x0F, 0x00] 64 16 0x0000 0x0000 0x00 with
        status := .faulted, fault := some ⟨.outOfBounds, 0x000F⟩ } := by decide

/-- V-IO-3: SEL 0xFF. -/
theorem test_v_io_3 :
    after (step (vectorState [0x11, 0xFF] 64 16 0x0000 0x0000 0x00)) =
      some { vectorState [0x11, 0xFF] 64 16 0x0000 0x0000 0x00 with
        ip := 0x0012, acc := 0x0000, device := 0xFF } := by decide

/-- V-IO-4: WAW. -/
theorem test_v_io_4 :
    after (step (vectorState [0x0F] 64 16 0x1241 0x0000 0x00)) =
      some { vectorState [0x0F] 64 16 0x1241 0x0000 0x00 with
        ip := 0x0011, acc := 0x1241, output := [0x41] } := by decide

/-- V-IO-6: WAW. -/
theorem test_v_io_6 :
    after (step (vectorState [0x0F] 64 16 0x1241 0x0000 0x03)) =
      some { vectorState [0x0F] 64 16 0x1241 0x0000 0x03 with
        ip := 0x0011, acc := 0x1241, incidents := [⟨.unknownDeviceWrite, 0x0010, 0x03⟩] } := by decide

/-- V-IO-8: RAW. -/
theorem test_v_io_8 :
    after (step { vectorState [0x10] 64 16 0x1234 0x0000 0x00 with input := [0xFF], inputClosed := true }) =
      some { vectorState [0x10] 64 16 0x1234 0x0000 0x00 with
        inputClosed := true, ip := 0x0011, acc := 0x00FF, input := [] } := by decide

/-- V-IO-12: RAW. -/
theorem test_v_io_12 :
    after (step (vectorState [0x10] 64 16 0x1234 0x0000 0x09)) =
      some { vectorState [0x10] 64 16 0x1234 0x0000 0x09 with
        ip := 0x0011, acc := 0x0000, incidents := [⟨.unknownDeviceRead, 0x0010, 0x09⟩] } := by decide

/-- V-CTL-14: byte 05 30. -/
theorem test_v_ctl_14 :
    after (step (vectorState [0x05, 0x30] 18 16 0x0000 0x0000 0x00)) =
      some { vectorState [0x05, 0x30] 18 16 0x0000 0x0000 0x00 with
        status := .faulted, fault := some ⟨.ipOverrun, 0x0010⟩ } := by decide

/-- V-CTL-15: byte 09 00 00 02. -/
theorem test_v_ctl_15 :
    after (step (vectorState [0x09, 0x00, 0x00, 0x02] 20 16 0x0000 0x0000 0x00)) =
      some { vectorState [0x09, 0x00, 0x00, 0x02] 20 16 0x0000 0x0000 0x00 with
        status := .faulted, fault := some ⟨.ipOverrun, 0x0010⟩ } := by decide

/-- V-CTL-18: byte FF. -/
theorem test_v_ctl_18 :
    after (step (vectorState [0xFF] 17 16 0x0000 0x0000 0x00)) =
      some { vectorState [0xFF] 17 16 0x0000 0x0000 0x00 with
        ip := 0x0011, acc := 0x0000, incidents := [⟨.unknownOpcode, 0x0010, 0xFF⟩] } := by decide

/-! ## The fetch hook and the waiting read -/

/-- `withFetchWord` lays CMP's five bytes where the next step fetches (spec/opcode_table.json, R80: both words of
reset memory read equal). -/
theorem test_withFetchWord_cmp :
    after (step (State.reset.withFetchWord 40 0x0004000009)) =
      some { State.reset with prog := [0x09, 0x00, 0x00, 0x04, 0x00], acc := 0xFFFF, ip := 5 } := by decide

/-- V-IO-11: the read waits with nothing changed; then the host closes the input and V-IO-10 follows. -/
theorem test_v_io_11 :
    after (exec .raw (small 0x1234 0 0x00 [])) = some (small 0x1234 0 0x00 []) ∧
    (after (exec .raw { small 0x1234 0 0x00 [] with hostActions := [.close], eofSentinel := 0x0100 })).map
      (fun t => (t.acc, t.ip, t.inputClosed)) = some (0x1234, 0, true) ∧
    (after (exec .raw { small 0x1234 0 0x00 [] with inputClosed := true, eofSentinel := 0x0100 })).map
      (fun t => (t.acc, t.ip)) = some (0x0100, 1) := by decide

/-- The dump of P4's end (R28): STACK_OVERFLOW has code 3, FAULTED code 2; a running core presents none. -/
theorem test_dump_p4 :
    dumpState { small 0x0000 0x0002 0x00 [(1, 0x01), (2, 0x02)] with
      ip := 6, status := .faulted, fault := some ⟨.stackOverflow, 3⟩ } =
      some { ip := 6, sp := 2, acc := 0, device := 0, status := 2, faultCode := 3, faultInfo := some 3,
             incidents := [] } ∧
    dumpState State.reset = none := by decide

/-! ## Witnesses: one theorem per obligation with hypotheses, each clause at its boundary -/

/-- A program of one instruction, then HLT, at `ip = 0`, with 16 bytes of memory. -/
def runState (i : Instr) (acc sp : Word) (device : Byte) : State :=
  { small acc sp device [] with prog := encodeProgram OpcodeMap.default [i, .hlt] }

/-- The memory of `small` with the word 0x0003 at its last word address, 14. -/
def lastWord : List Host.Cell := [(14, 0x03)]

/-- A target that is the program's length is past the program (R63, R68). -/
theorem witness_JmpSetsIpWithoutCheck :
    (runState (.jmp 4) 0 0 0).admitted = true ∧ (runState (.jmp 4) 0 0 0).status = .running ∧
    (runState (.jmp 4) 0 0 0).prog.length ≤ (4 : Word).toNat := by decide

theorem witness_JnzJumpsExactlyIfAccNonzero :
    (small 0x0001 0 0 []).acc ≠ 0 ∧ (small 0x0000 0 0 []).acc = 0 ∧
    ((runState (.jnz 4) 1 0 0).admitted = true ∧ (runState (.jnz 4) 1 0 0).status = .running ∧
      (runState (.jnz 4) 1 0 0).prog.length ≤ (4 : Word).toNat) := by decide

/-- `sp = MEM_SIZE - 3` is the last that may push, `MEM_SIZE - 2` the first that may not. -/
theorem witness_PshPushesImmediateWord :
    (Memory.wf (small 0 0x000D 0 lastWord).mem = true ∧ (small 0 0x000D 0 lastWord).memSize ≤ 65536 ∧
      (small 0 0x000D 0 lastWord).sp.toNat + 2 < (small 0 0x000D 0 lastWord).memSize) ∧
    ¬ (small 0 0x000E 0 []).sp.toNat + 2 < (small 0 0x000E 0 []).memSize ∧
    ¬ (small 0 0xFFFF 0 []).sp.toNat + 2 < (small 0 0xFFFF 0 []).memSize := by decide

/-- `sp = MEM_SIZE - 2` and `sp = 0` (whose decrement wraps) may pop; `MEM_SIZE - 1` and 0xFFFF may not. -/
theorem witness_PopReadsWordThenDecrementsSp :
    (small 0 0x000E 0 []).sp.toNat + 1 < (small 0 0x000E 0 []).memSize ∧
    (small 0 0x0000 0 []).sp.toNat + 1 < (small 0 0x0000 0 []).memSize ∧
    ¬ (small 0 0x000F 0 []).sp.toNat + 1 < (small 0 0x000F 0 []).memSize ∧
    ¬ (small 0 0xFFFF 0 []).sp.toNat + 1 < (small 0 0xFFFF 0 []).memSize := by decide

theorem witness_PacPushesAccumulator :
    (Memory.wf (small 0xCAFE 0x000D 0 lastWord).mem = true ∧ (small 0xCAFE 0x000D 0 lastWord).memSize ≤ 65536 ∧
      (small 0xCAFE 0x000D 0 lastWord).sp.toNat + 2 < (small 0xCAFE 0x000D 0 lastWord).memSize) ∧
    ¬ (small 0xCAFE 0x000E 0 []).sp.toNat + 2 < (small 0xCAFE 0x000E 0 []).memSize := by decide

theorem witness_LspStoresSp :
    (Memory.wf (small 7 5 0 lastWord).mem = true ∧ (14 : Word).toNat + 1 < (small 7 5 0 lastWord).memSize) ∧
    ¬ (15 : Word).toNat + 1 < (small 7 5 0 lastWord).memSize := by decide

theorem witness_SspLoadsSpUnchecked :
    (14 : Word).toNat + 1 < (small 7 5 0 lastWord).memSize ∧
    ¬ (15 : Word).toNat + 1 < (small 7 5 0 lastWord).memSize := by decide

theorem witness_LcaStoresAcc :
    (Memory.wf (small 7 5 0 lastWord).mem = true ∧ (14 : Word).toNat + 1 < (small 7 5 0 lastWord).memSize) ∧
    ¬ (15 : Word).toNat + 1 < (small 7 5 0 lastWord).memSize := by decide

theorem witness_ScaLoadsAcc :
    (14 : Word).toNat + 1 < (small 7 5 0 lastWord).memSize ∧
    ¬ (15 : Word).toNat + 1 < (small 7 5 0 lastWord).memSize := by decide

theorem witness_AddAddsMemoryWordModulo :
    (14 : Word).toNat + 1 < (small 7 5 0 lastWord).memSize ∧
    ¬ (15 : Word).toNat + 1 < (small 7 5 0 lastWord).memSize := by decide

theorem witness_SubSubtractsMemoryWordModulo :
    (14 : Word).toNat + 1 < (small 7 5 0 lastWord).memSize ∧
    ¬ (15 : Word).toNat + 1 < (small 7 5 0 lastWord).memSize := by decide

theorem witness_MulKeepsLowProductWord :
    (14 : Word).toNat + 1 < (small 7 5 0 lastWord).memSize ∧
    ¬ (15 : Word).toNat + 1 < (small 7 5 0 lastWord).memSize := by decide

theorem witness_AndIsBitwise :
    (14 : Word).toNat + 1 < (small 7 5 0 lastWord).memSize ∧
    ¬ (15 : Word).toNat + 1 < (small 7 5 0 lastWord).memSize := by decide

theorem witness_BorIsBitwise :
    (14 : Word).toNat + 1 < (small 7 5 0 lastWord).memSize ∧
    ¬ (15 : Word).toNat + 1 < (small 7 5 0 lastWord).memSize := by decide

theorem witness_XorIsBitwise :
    (14 : Word).toNat + 1 < (small 7 5 0 lastWord).memSize ∧
    ¬ (15 : Word).toNat + 1 < (small 7 5 0 lastWord).memSize := by decide

/-- Both words in bounds and equal (one address), or differing; `a1` bad; `a1` good and `a2` bad. -/
theorem witness_CmpComparesMemoryWordsInOrder :
    ((14 : Word).toNat + 1 < (small 0 0 0 lastWord).memSize ∧
      (small 0 0 0 lastWord).readWord (14 : Word).toNat = (small 0 0 0 lastWord).readWord (14 : Word).toNat ∧
      (0 : Word).toNat + 1 < (small 0 0 0 lastWord).memSize ∧
      (small 0 0 0 lastWord).readWord (14 : Word).toNat ≠ (small 0 0 0 lastWord).readWord (0 : Word).toNat) ∧
    ¬ (15 : Word).toNat + 1 < (small 0 0 0 lastWord).memSize := by decide

theorem witness_CmaComparesWordWithAcc :
    ((14 : Word).toNat + 1 < (small 3 0 0 lastWord).memSize ∧
      (small 3 0 0 lastWord).readWord (14 : Word).toNat = (small 3 0 0 lastWord).acc ∧
      (small 0x0300 0 0 lastWord).readWord (14 : Word).toNat ≠ (small 0x0300 0 0 lastWord).acc) ∧
    ¬ (15 : Word).toNat + 1 < (small 3 0 0 lastWord).memSize := by decide

/-- A divisor that is not zero, a zero one, and one out of bounds. -/
theorem witness_DivDividesUnsignedOrFaults :
    ((14 : Word).toNat + 1 < (small 7 0 0 lastWord).memSize ∧
      (small 7 0 0 lastWord).readWord (14 : Word).toNat ≠ 0 ∧
      (small 7 0 0 []).readWord (14 : Word).toNat = 0) ∧
    ¬ (15 : Word).toNat + 1 < (small 7 0 0 lastWord).memSize := by decide

theorem witness_ModTakesUnsignedRemainderOrFaults :
    ((14 : Word).toNat + 1 < (small 0x8000 0 0 lastWord).memSize ∧
      (small 0x8000 0 0 lastWord).readWord (14 : Word).toNat ≠ 0 ∧
      (small 0x8000 0 0 []).readWord (14 : Word).toNat = 0) ∧
    ¬ (15 : Word).toNat + 1 < (small 0x8000 0 0 lastWord).memSize := by decide

theorem witness_DivAndModAgree :
    (14 : Word).toNat + 1 < (small 7 0 0 lastWord).memSize ∧
      (small 7 0 0 lastWord).readWord (14 : Word).toNat ≠ 0 := by decide

theorem witness_WawWritesSelectedDevice :
    (small 0x1241 0 0x00 []).device = 0 ∧ (small 0x1241 0 0x01 []).device ≠ 0 ∧
    (small 0x1241 0 0xFF []).device ≠ 0 := by decide

/-- A byte is there; end of input; an unknown device; the read waits. -/
theorem witness_RawReadsSelectedDeviceOrWaits :
    (∃ c cs, ({ small 0 0 0 [] with input := [0xFF] } : State).input = c :: cs) ∧ (small 0 0 0 []).device = 0 ∧
    ({ small 0 0 0 [] with inputClosed := true } : State).inputClosed = true ∧ (small 0 0 0 []).input = [] ∧
    (small 0 0 0x01 []).device ≠ 0 ∧ (small 0 0 0 []).Waiting :=
  ⟨⟨0xFF, [], rfl⟩, rfl, rfl, rfl, by decide, rfl, rfl, rfl⟩

theorem witness_WaitingReadHoldsUntilHostActs :
    ((small 0 0 0 []).Waiting ∧ (small 0 0 0 []).hostActions = []) ∧
    (({ small 0 0 0 [] with hostActions := [.supply 0x41] } : State).Waiting ∧
      ({ small 0 0 0 [] with hostActions := [.supply 0x41] } : State).hostActions = .supply 0x41 :: []) ∧
    (({ small 0 0 0 [] with hostActions := [.close] } : State).Waiting ∧
      ({ small 0 0 0 [] with hostActions := [.close] } : State).hostActions = .close :: []) :=
  ⟨⟨⟨rfl, rfl, rfl⟩, rfl⟩, ⟨⟨rfl, rfl, rfl⟩, rfl⟩, ⟨rfl, rfl, rfl⟩, rfl⟩

theorem default_leaves_0x1C (m : Mnemonic) : OpcodeMap.default.byteOf m ≠ 0x1C := by cases m <;> decide

/-- 0x1C, the first unrecognized byte of the default map, as the program's last byte. -/
theorem witness_UnknownByteIsReportedAndSkipped :
    (vectorState [0x1C] 17 16 0 0 0).admitted = true ∧ (vectorState [0x1C] 17 16 0 0 0).status = .running ∧
    (vectorState [0x1C] 17 16 0 0 0).prog.drop (vectorState [0x1C] 17 16 0 0 0).ip.toNat = 0x1C :: [] ∧
    ∀ m, (vectorState [0x1C] 17 16 0 0 0).opcodeMap.byteOf m ≠ 0x1C :=
  ⟨by decide, by decide, by decide, default_leaves_0x1C⟩

/-- CMP, the longest instruction, as the program's last. -/
theorem witness_StepRunsDecodedInstruction :
    (vectorState [0x09, 0, 0, 4, 0] 21 16 0 0 0).admitted = true ∧
    (vectorState [0x09, 0, 0, 4, 0] 21 16 0 0 0).status = .running ∧ (Instr.cmp 0 4).wellFormed = true ∧
    decode (vectorState [0x09, 0, 0, 4, 0] 21 16 0 0 0).opcodeMap
      ((vectorState [0x09, 0, 0, 4, 0] 21 16 0 0 0).prog.drop 0x10) = .instr (.cmp 0 4) [] ∧
    (vectorState [0x09, 0, 0, 4, 0] 21 16 0 0 0).prog.drop (vectorState [0x09, 0, 0, 4, 0] 21 16 0 0 0).ip.toNat =
      encode OpcodeMap.default (.cmp 0 4) ++ [] := by decide

/-- `ip = PROG_LEN`, and LDC one byte short (R63, R64). -/
theorem witness_ProgramOverrunFaultsBeforeAnyEffect :
    (vectorState [] 16 16 0 0 0).admitted = true ∧ (vectorState [] 16 16 0 0 0).status = .running ∧
    (vectorState [] 16 16 0 0 0).prog.length ≤ (vectorState [] 16 16 0 0 0).ip.toNat ∧
    (vectorState [0x12, 1] 18 16 0 0 0).admitted = true ∧ (vectorState [0x12, 1] 18 16 0 0 0).status = .running ∧
    (vectorState [0x12, 1] 18 16 0 0 0).prog[(vectorState [0x12, 1] 18 16 0 0 0).ip.toNat]? =
      some (OpcodeMap.default.byteOf .ldc) ∧
    (vectorState [0x12, 1] 18 16 0 0 0).prog.length <
      (vectorState [0x12, 1] 18 16 0 0 0).ip.toNat + 1 + Mnemonic.ldc.format.operandSize := by decide

theorem witness_EndedRunTakesNoStep :
    ({ State.reset with status := .halted } : State).admitted = true ∧
    ({ State.reset with status := .halted } : State).status = .halted ∧
    ({ State.reset with status := .faulted } : State).admitted = true ∧
    ({ State.reset with status := .faulted } : State).status = .faulted := by decide

/-- The longest program, the largest memory with its last byte set, the least sentinel. -/
def greatLaunch : Launch :=
  { bareLaunch with prog := List.replicate 65536 0x00, memInit := [(65535, 0xFF)], eofSentinel := 0x0100 }

theorem greatLaunch_admitted : launchAdmitted greatLaunch = true :=
  launchAdmitted_iff.2 ⟨paramsAdmitted_iff.2 ⟨Nat.le_of_eq List.length_replicate, by decide⟩, by decide⟩

theorem witness_LaunchSetsResetState : launchAdmitted greatLaunch = true ∧ 65535 < greatLaunch.memSize :=
  ⟨greatLaunch_admitted, by decide⟩

theorem witness_LaunchEstablishesInvariant : launchAdmitted greatLaunch = true := greatLaunch_admitted

/-- Each clause alone, one past its boundary; a state's program, memory, map and sentinel likewise. -/
theorem witness_LaunchOutOfRangeIsRefused :
    65536 < ({ bareLaunch with prog := List.replicate 65537 0x00 } : Launch).prog.length ∧
    65536 < ({ bareLaunch with memSize := 65537 } : Launch).memSize ∧
    ({ bareLaunch with opcodeMap := clashMap } : Launch).opcodeMap.injective = false ∧
    ({ bareLaunch with eofSentinel := 0x00FF } : Launch).eofSentinel.toNat ≤ 0x00FF ∧
    65536 < ({ State.reset with prog := List.replicate 65537 0x00 } : State).prog.length ∧
    65536 < ({ State.reset with memSize := 65537 } : State).memSize ∧
    ({ State.reset with opcodeMap := clashMap } : State).opcodeMap.injective = false ∧
    ({ State.reset with eofSentinel := 0x00FF } : State).eofSentinel.toNat ≤ 0x00FF :=
  ⟨by rw [List.length_replicate]; decide, by decide, by decide, by decide,
   by rw [List.length_replicate]; decide, by decide, by decide, by decide⟩

theorem witness_EveryInitialMemoryHasALaunch : bareLaunch.memSize ≤ 65536 ∧ 65535 < bareLaunch.memSize := by decide

/-- A push onto the last word that fits, in a state that meets the invariant. -/
def pushState : State := { runState (.psh 0xBEEF) 0x0007 0x000D 0x00 with mem := [(1, 0x11)] }

/-- What V-STK-3's rule (R72) makes of it. -/
def pushedState : State :=
  { pushState with ip := 3, sp := 0x000E, mem := [(1, 0x11), (14, 0xEF), (15, 0xBE)] }

theorem pushState_inv : pushState.Inv :=
  { admitted := by decide, memCanonical := by decide, memWithin := by decide, ipInRange := by decide,
    faultRecord := by decide }

theorem pushState_step : step pushState = .next pushedState := next_of_after (by decide)

/-- A step that stores, and a step that faults, each from a state that meets the invariant. -/
theorem witness_StepKeepsInvariant :
    (pushState.Inv ∧ step pushState = .next pushedState) ∧
    ∃ t, State.reset.Inv ∧ step State.reset = .next t ∧ t.status = .faulted :=
  ⟨⟨pushState_inv, pushState_step⟩,
   { State.reset with status := .faulted, fault := some ⟨.ipOverrun, 0⟩ },
   { admitted := by decide, memCanonical := by decide, memWithin := by decide, ipInRange := by decide,
     faultRecord := by decide },
   next_of_after (by decide), rfl⟩

/-- A run of two steps: the push, then HLT. -/
theorem witness_ReachedStatesKeepInvariantAndProgram :
    pushState.Inv ∧ Reaches pushState { pushedState with ip := 4, status := .halted } :=
  ⟨pushState_inv, (Reaches.here.next pushState_step).next (next_of_after (by decide))⟩

/-- The spec's default map and another one; a word operand at both ends of its range. -/
theorem witness_DecodeEncodeRoundTrip :
    OpcodeMap.default.injective = true ∧ downMap.injective = true ∧
    (Instr.cmp 0x0000 0xFFFF).wellFormed = true ∧ (Instr.sel 0xFF).wellFormed = true := by decide

theorem witness_EncodeDecodeRoundTrip :
    decode OpcodeMap.default [0x05, 0x34, 0x12, 0xEE] = .instr (.jmp 0x1234) [0xEE] ∧
    decode downMap [0xE4] = .instr .hlt [] := by decide

/-- An unrecognized byte, and each operand size one byte short. -/
theorem witness_DecoderRejectsByName :
    OpcodeMap.default.injective = true ∧ (∀ m, OpcodeMap.default.byteOf m ≠ 0x1C) ∧
    ([] : List Byte).length < Mnemonic.sel.format.operandSize ∧
    ([0] : List Byte).length < Mnemonic.jmp.format.operandSize ∧
    ([0, 0, 0] : List Byte).length < Mnemonic.cmp.format.operandSize :=
  ⟨by decide, default_leaves_0x1C, by decide, by decide, by decide⟩

theorem witness_WordAccessIsLittleEndian : Memory.wf (small 0 0 0 lastWord).mem = true := by decide

theorem witness_StoreThenLoadGivesBack :
    Memory.wf (small 7 5 0 lastWord).mem = true ∧ (14 : Word).toNat + 1 < (small 7 5 0 lastWord).memSize := by decide

theorem witness_PushThenPopRestores :
    Memory.wf (small 7 0x000D 0 lastWord).mem = true ∧ (small 7 0x000D 0 lastWord).memSize ≤ 65536 ∧
    (small 7 0x000D 0 lastWord).sp.toNat + 2 < (small 7 0x000D 0 lastWord).memSize := by decide

theorem witness_TwoPushesOverlap :
    Memory.wf (small 7 0x000C 0 lastWord).mem = true ∧ (small 7 0x000C 0 lastWord).memSize ≤ 65536 ∧
    (small 7 0x000C 0 lastWord).sp.toNat + 3 < (small 7 0x000C 0 lastWord).memSize := by decide

/-- Each cause that an instruction raises, the order of CMP's and DIV's checks, and an instruction that raises
none. -/
theorem witness_FatalFaultsExactlyByTable :
    fatalCause (.psh 0) (small 0 0xFFFF 0 []) = some (.stackOverflow, 65536) ∧
    fatalCause .pac (small 0 0x000E 0 []) = some (.stackOverflow, 15) ∧
    fatalCause .pop (small 0 0x000F 0 []) = some (.outOfBounds, 15) ∧
    fatalCause (.cmp 0x00FF 0x000F) (small 0 0 0 []) = some (.outOfBounds, 0x00FF) ∧
    fatalCause (.cmp 0x0000 0x000F) (small 0 0 0 []) = some (.outOfBounds, 0x000F) ∧
    fatalCause (.div 0x000F) (small 0 0 0 []) = some (.outOfBounds, 0x000F) ∧
    fatalCause (.mod 0x000E) (small 0 0 0 []) = some (.divideByZero, 0x000E) ∧
    fatalCause (.lca 0x000E) (small 0 0 0 []) = none ∧ fatalCause .hlt (small 0 0 0 []) = none := by decide

/-- P4's third PSH, at `sp = MEM_SIZE - 2`. -/
theorem witness_FatalFaultsArePrecise :
    ∃ t, step (runState (.psh 3) 0 0x000E 0) = .next t ∧ t.status = .faulted :=
  ⟨{ runState (.psh 3) 0 0x000E 0 with status := .faulted, fault := some ⟨.stackOverflow, 15⟩ },
   next_of_after (by decide), rfl⟩

/-- W10: HLT ends the run at once. -/
theorem witness_HaltedOnlyByHlt : ∃ t, step (runState .hlt 0 0 0) = .next t ∧ t.status = .halted :=
  ⟨{ runState .hlt 0 0 0 with status := .halted, ip := 1 }, next_of_after (by decide), rfl⟩

/-- V-CTL-18: a step that reports. -/
theorem witness_IncidentLogOnlyGrows :
    ∃ t, step (vectorState [0xFF] 17 16 0 0 0) = .next t ∧ t.incidents ≠ [] :=
  ⟨{ vectorState [0xFF] 17 16 0 0 0 with ip := 0x0011, incidents := [⟨.unknownOpcode, 0x0010, 0xFF⟩] },
   next_of_after (by decide), by decide⟩

/-- POP changes `acc` and `sp`, SEL the device, WAW the output. -/
theorem witness_RegistersWrittenOnlyByTheirInstructions :
    (∃ t, exec .pop (small 5 0 0 []) = .next t ∧ t.acc ≠ 5 ∧ t.sp ≠ 0) ∧
    (∃ t, exec (.sel 0xFF) (small 5 0 0 []) = .next t ∧ t.device ≠ 0) ∧
    (∃ t, exec .waw (small 0x1241 0 0 []) = .next t ∧ t.output ≠ []) :=
  ⟨⟨{ small 0 0xFFFF 0 [] with ip := 1 }, next_of_after (by decide), by decide⟩,
   ⟨{ small 5 0 0xFF [] with ip := 2 }, next_of_after (by decide), by decide⟩,
   ⟨{ small 0x1241 0 0 [] with ip := 1, output := [0x41] }, next_of_after (by decide), by decide⟩⟩

/-- A store at the last word, a push, and an instruction that stores nothing. -/
theorem witness_MemoryWrittenOnlyAtStoreAddress :
    (storeAddress (.lca 14) (small 0x1234 0 0 []) = some 14 ∧
      exec (.lca 14) (small 0x1234 0 0 []) = .next { small 0x1234 0 0 [(14, 0x34), (15, 0x12)] with ip := 3 }) ∧
    (storeAddress .pac (small 0x1234 0x000D 0 []) = some 14 ∧
      exec .pac (small 0x1234 0x000D 0 []) = .next { small 0x1234 0x000E 0 [(14, 0x34), (15, 0x12)] with ip := 1 }) ∧
    (storeAddress (.sca 14) (small 7 0 0 lastWord) = none ∧
      exec (.sca 14) (small 7 0 0 lastWord) = .next { small 3 0 0 lastWord with ip := 3 }) :=
  ⟨⟨by decide, next_of_after (by decide)⟩, ⟨by decide, next_of_after (by decide)⟩,
   ⟨by decide, next_of_after (by decide)⟩⟩

/-- A step that stores to memory. -/
theorem witness_StoresAreNeverFetched : step pushState = .next pushedState := pushState_step

/-- A step that appends to a log. -/
theorem witness_LogsAreInvisibleToTheProgram :
    ∃ t, step (vectorState [0xFF] 17 16 0 0 0) = .next t :=
  ⟨{ vectorState [0xFF] 17 16 0 0 0 with ip := 0x0011, incidents := [⟨.unknownOpcode, 0x0010, 0xFF⟩] },
   next_of_after (by decide)⟩

theorem witness_SequentialAdvanceNeverWraps :
    pushState.Inv ∧
    decode pushState.opcodeMap (pushState.prog.drop pushState.ip.toNat) = .instr (.psh 0xBEEF) [0x1B] ∧
    step pushState = .next pushedState ∧ pushedState.status ≠ .faulted ∧ (Instr.psh 0xBEEF).isJump = false ∧
    ¬ (Instr.psh 0xBEEF = .raw ∧ pushState.Waiting) :=
  ⟨pushState_inv, by decide, pushState_step, by decide, by decide, fun h => by cases h.1⟩

/-- A running state; HALTED with no fault and an incident; FAULTED with each fault kind. -/
theorem witness_DumpPresentsEndedRun :
    State.reset.status = .running ∧
    ({ State.reset with status := .halted } : State).status ≠ .running ∧
    ({ State.reset with status := .halted } : State).fault = none ∧
    ({ State.reset with incidents := [⟨.unknownDeviceRead, 0x16, 0x05⟩] } : State).incidents[0]? =
      some ⟨.unknownDeviceRead, 0x16, 0x05⟩ ∧
    ∀ k, ({ State.reset with status := .faulted, fault := some ⟨k, 65536⟩ } : State).status ≠ .running ∧
      ({ State.reset with status := .faulted, fault := some ⟨k, 65536⟩ } : State).fault = some ⟨k, 65536⟩ :=
  ⟨rfl, by decide, rfl, rfl, fun _ => ⟨RunStatus.noConfusion, rfl⟩⟩

end Sys2Proof.Tests
end

namespace Sys2Proof.Machine

/-! ## The program space is read-only, and fetch reads nothing else (spec/20_memory.md R30, R48) -/

/-- Whatever an instruction answers, a fatal fault included, it leaves the launch parameters alone (R30). -/
theorem sameLaunch_of_exec {i : Instr} {s t : State} (h : exec i s = .next t) : SameLaunch s t := by
  rcases exec_cases i s with ⟨k, n, -, -, hfault⟩ | ⟨-, u, hnext, heffect⟩
  · cases hfault.symm.trans h
    exact ⟨rfl, rfl, rfl, rfl⟩
  · cases hnext.symm.trans h
    exact heffect.launch

/-- Every step leaves the launch parameters alone (R30). -/
theorem sameLaunch_of_step {s t : State} (h : step s = .next t) : SameLaunch s t := by
  obtain ⟨-, -, ⟨-, rfl⟩ | ⟨op, -, rfl⟩ | ⟨i, rest, -, hexec⟩⟩ := step_cases h
  · exact ⟨rfl, rfl, rfl, rfl⟩
  · exact ⟨rfl, rfl, rfl, rfl⟩
  · exact sameLaunch_of_exec hexec

/-- What is fetched is a function of the opcode map, the program and `ip`; in particular not of data memory (R48). -/
theorem fetch_eq_of_program {s t : State} (hmap : t.opcodeMap = s.opcodeMap) (hprog : t.prog = s.prog)
    (hip : t.ip = s.ip) : fetch t = fetch s := by
  simp only [fetch, State.bytesAtIp, hmap, hprog, hip]

/-- Settles O57: fetch looks only at the program, which no step changes. -/
theorem storesAreNeverFetched : Obligations.StoresAreNeverFetched := by
  refine ⟨fun s m => fetch_eq_of_program rfl rfl rfl, fun s t h => ?_⟩
  obtain ⟨hprog, -, -, -⟩ := sameLaunch_of_step h
  exact hprog

/-! ## Words in data memory (spec/20_memory.md R33) -/

/-- A word write puts the word at its address; canonical memory is what makes the write readable. -/
theorem holdsWord_writeWord {s : State} (hwf : Memory.wf s.mem = true) (a : Nat) (v : Word) :
    HoldsWord (s.writeWord a v) a v :=
  ⟨State.readByte_writeWord_low hwf a v, State.readByte_writeWord_high hwf a v⟩

/-- A word write is seen at its two addresses only, whatever the form of the memory. -/
theorem sameMemoryOutside_writeWord (s : State) (a : Nat) (v : Word) :
    SameMemoryOutside a s (s.writeWord a v) :=
  fun _ hlow hhigh => State.readByte_writeWord_other hlow hhigh

/-- Settles O46: the read is `wordOfBytes` of the two bytes, low byte first; the write has its two bytes and its
frame. -/
theorem wordAccessIsLittleEndian : Obligations.WordAccessIsLittleEndian :=
  fun s a v => ⟨wordOfBytes_toNat _ _, fun hwf => holdsWord_writeWord hwf a v, sameMemoryOutside_writeWord s a v⟩

end Sys2Proof.Machine

namespace Sys2Proof.Machine

/-! ## The step at a fetch that decodes no instruction, and after the end (spec/40_loop_and_control.md R62, R63, R71) -/

/-- With no byte at `ip`, a running step overruns (R63). -/
theorem step_of_fetch_noByte {s : State} (hadm : s.admitted = true) (hrun : s.status = .running)
    (hf : fetch s = .noByte) : step s = raiseFatal .ipOverrun s.ip s := by
  simp only [step, hadm, hrun, hf, if_true]

/-- A running step on a byte of no opcode is the meaning of the unrecognized byte (R71). -/
theorem step_of_fetch_unknownOpcode {s : State} {op : Byte} (hadm : s.admitted = true)
    (hrun : s.status = .running) (hf : fetch s = .unknownOpcode op) : step s = execUnknown op s := by
  simp only [step, hadm, hrun, hf, if_true]

/-- There is nothing to fetch at or past `PROG_LEN` (R63). -/
theorem fetch_past_program {s : State} (h : s.prog.length ≤ s.ip.toNat) : fetch s = .noByte := by
  rw [fetch, State.bytesAtIp, List.drop_eq_nil_of_le h, decode]

/-- A byte that stands for no opcode is fetched as itself, whatever follows it (R57). -/
theorem fetch_unknownOpcode {s : State} {op : Byte} {rest : List Byte}
    (hbytes : s.prog.drop s.ip.toNat = op :: rest) (hop : s.opcodeMap.opcodeOf op = none) :
    fetch s = .unknownOpcode op := by
  simp only [fetch, State.bytesAtIp, hbytes, decode, hop]

/-- Only a running core steps (R62). -/
theorem step_ne_next_of_not_running {s : State} (h : s.status ≠ .running) (t : State) : step s ≠ .next t := by
  intro hstep
  obtain ⟨-, hrun, -⟩ := step_cases hstep
  exact h hrun

/-! ## Jumps (spec/40_loop_and_control.md R66, R68, R69) -/

/-- JMP and JNZ leave the check of their target to the next fetch: there, a target past the program overruns. -/
theorem step_jumpTo_past_program {s : State} {t : Word} (hadm : s.admitted = true) (hrun : s.status = .running)
    (hpast : s.prog.length ≤ t.toNat) :
    step (s.jumpTo t) = raiseFatal .ipOverrun (t.setWidth 17) (s.jumpTo t) := by
  have hip : (s.jumpTo t).prog.length ≤ (s.jumpTo t).ip.toNat := by
    rwa [State.jumpTo_prog, State.jumpTo_ip, extend_toNat]
  exact step_of_fetch_noByte hadm hrun (fetch_past_program hip)

/-- The condition of JNZ as the spec writes it, `acc != 0` (spec/10_state.md R17). -/
theorem State.accNonzero_iff {s : State} : s.accNonzero = true ↔ s.acc ≠ 0 := bne_iff_ne

theorem exec_jnz_taken {s : State} (h : s.acc ≠ 0) (t : Word) : exec (.jnz t) s = .next (s.jumpTo t) :=
  if_pos (State.accNonzero_iff.mpr h)

theorem exec_jnz_notTaken {s : State} (h : s.acc = 0) (t : Word) :
    exec (.jnz t) s = .next (s.advance Format.fw.length) :=
  if_neg fun hnz => State.accNonzero_iff.mp hnz h

/-! ## The control instructions and the unrecognized byte (R67 to R71) -/

/-- Settles O1: NOP is the advance by its one byte. -/
theorem nopAdvancesIpOnly : Obligations.NopAdvancesIpOnly := fun _ _ => ⟨rfl, rfl⟩

/-- Settles O2: JMP is the jump itself, and the next step's fetch finds a target past the program. -/
theorem jmpSetsIpWithoutCheck : Obligations.JmpSetsIpWithoutCheck :=
  fun _ _ _ => ⟨rfl, rfl, step_jumpTo_past_program⟩

/-- Settles O3: the two branches of JNZ, and the taken jump's next step as for JMP. -/
theorem jnzJumpsExactlyIfAccNonzero : Obligations.JnzJumpsExactlyIfAccNonzero :=
  fun _ t _ => ⟨rfl, fun h => exec_jnz_taken h t, fun h => exec_jnz_notTaken h t, step_jumpTo_past_program⟩

/-- Settles O4: the state HLT leaves is not running, so it takes no step. -/
theorem hltHaltsAndAdvancesIp : Obligations.HltHaltsAndAdvancesIp :=
  fun _ _ => ⟨rfl, rfl, step_ne_next_of_not_running RunStatus.noConfusion⟩

/-- Settles O30: a byte of no opcode is looked up to nothing, so it is fetched and executed as the unrecognized
byte. -/
theorem unknownByteIsReportedAndSkipped : Obligations.UnknownByteIsReportedAndSkipped := by
  intro s op rest hadm hrun hbytes hop
  have hf : fetch s = .unknownOpcode op := fetch_unknownOpcode hbytes (OpcodeMap.opcodeOf_eq_none.mpr hop)
  exact step_of_fetch_unknownOpcode hadm hrun hf

end Sys2Proof.Machine

namespace Sys2Proof.Machine

/-! ## The stores of LCA and LSP (spec/20_memory.md R33, R39) -/

/-- With the word in bounds, the store is the word write and the advance. -/
theorem storeNext_inBounds {a : Word} {s : State} (h : s.InBounds a.toNat) (v : Word) :
    storeNext a v s = .next ((s.writeWord a.toNat v).advance Format.fw.length) :=
  withAddress_inBounds h

/-- With the word out of bounds, the store is refused before any write. -/
theorem storeNext_outOfBounds {a : Word} {s : State} (h : ¬ s.InBounds a.toNat) (v : Word) :
    storeNext a v s = raiseFatal .outOfBounds (a.setWidth 17) s :=
  withAddress_outOfBounds h

/-! ## Storing and loading `sp` (spec/41_stack.md R74, R75) -/

/-- Settles O7: LSP is the store of `sp`; the word write gives the word and its frame, and neither it nor the advance
touches any other part of the state. -/
theorem lspStoresSp : Obligations.LspStoresSp := by
  intro om a s
  refine ⟨rfl, fun hwf hb => ?_, fun hb => storeNext_outOfBounds hb s.sp⟩
  have hword : HoldsWord (s.writeWord a.toNat s.sp) a.toNat s.sp := holdsWord_writeWord hwf _ _
  have hframe : SameMemoryOutside a.toNat s (s.writeWord a.toNat s.sp) := sameMemoryOutside_writeWord s _ _
  exact ⟨_, storeNext_inBounds hb s.sp, hword, hframe, rfl, rfl, rfl, rfl,
    ⟨rfl, rfl, rfl⟩, ⟨rfl, rfl, rfl, rfl⟩, ⟨rfl, rfl, rfl, rfl⟩⟩

/-- SSP is a checked read of the word at `a`, with no check of the word read. -/
theorem exec_ssp (a : Word) (s : State) :
    exec (.ssp a) s = withOperand a s fun m => .next ((s.setSp m).advance Format.fw.length) := rfl

/-- Settles O8: the two cases of the checked read; its word goes to `sp` as it is. -/
theorem sspLoadsSpUnchecked : Obligations.SspLoadsSpUnchecked :=
  fun _ a s => ⟨rfl, fun hb => (exec_ssp a s).trans (withOperand_inBounds hb),
    fun hb => (exec_ssp a s).trans (withOperand_outOfBounds hb)⟩

end Sys2Proof.Machine

namespace Sys2Proof.Machine

/-! ## Instructions that only replace `acc` (spec/42_acc_memory.md, spec/43_alu.md) -/

/-- The three-byte instructions that replace `acc` change it and `ip`, nothing else. -/
theorem setAccNext_fw (v : Word) (s : State) : setAccNext v .fw s = .next { s with acc := v, ip := s.ip + 3 } := rfl

/-- With the word at `a` in bounds, `acc` becomes a function of that word. -/
theorem withOperand_setAccNext_fw {a : Word} {s : State} (h : s.InBounds a.toNat) (g : Word → Word) :
    (withOperand a s fun m => setAccNext (g m) .fw s) =
      .next { s with acc := g (s.readWord a.toNat), ip := s.ip + 3 } :=
  (withOperand_inBounds h).trans (setAccNext_fw _ s)

/-- Equal words compare as 0xFFFF (spec/10_state.md R17). -/
theorem compareResult_of_eq {x y : Word} (h : x = y) : compareResult x y = 0xFFFF := if_pos h

/-- Unequal words compare as 0x0000 (spec/10_state.md R17). -/
theorem compareResult_of_ne {x y : Word} (h : x ≠ y) : compareResult x y = 0x0000 := if_neg h

/-! ## Accumulator load, store and compare (spec/42_acc_memory.md R78, R79, R81, R82) -/

theorem exec_lca (a : Word) (s : State) : exec (.lca a) s = storeNext a s.acc s := rfl

theorem exec_sca (a : Word) (s : State) : exec (.sca a) s = withOperand a s fun m => setAccNext m .fw s := rfl

theorem exec_ldc (v : Word) (s : State) : exec (.ldc v) s = setAccNext v .fw s := rfl

theorem exec_cma (a : Word) (s : State) :
    exec (.cma a) s = withOperand a s fun m => setAccNext (compareResult m s.acc) .fw s := rfl

/-- Settles O10: LCA is the store of `acc`; the launch parameters are kept as by every instruction, the memory outside
the word as by every word write, and the other parts are no target of the write or the advance. -/
theorem lcaStoresAcc : Obligations.LcaStoresAcc := by
  intro om a s
  refine ⟨rfl, fun hwf hb => ?_, fun hb => (exec_lca a s).trans (storeNext_outOfBounds hb s.acc)⟩
  have hexec : exec (.lca a) s = .next ((s.writeWord a.toNat s.acc).advance Format.fw.length) :=
    (exec_lca a s).trans (storeNext_inBounds hb s.acc)
  exact ⟨_, hexec, holdsWord_writeWord hwf a.toNat s.acc, sameMemoryOutside_writeWord s a.toNat s.acc,
    rfl, rfl, rfl, rfl, ⟨rfl, rfl, rfl⟩, sameLaunch_of_exec hexec, ⟨rfl, rfl, rfl, rfl⟩⟩

/-- Settles O11: the two cases of the checked read; its word goes to `acc` as it is. -/
theorem scaLoadsAcc : Obligations.ScaLoadsAcc :=
  fun _ a s => ⟨rfl, fun hb => (exec_sca a s).trans (withOperand_setAccNext_fw hb fun m => m),
    fun hb => (exec_sca a s).trans (withOperand_outOfBounds hb)⟩

/-- Settles O13: LDC replaces `acc` by its immediate, with no case to split on. -/
theorem ldcLoadsImmediate : Obligations.LdcLoadsImmediate :=
  fun _ v s => ⟨rfl, (exec_ldc v s).trans (setAccNext_fw v s)⟩

/-- Settles O14: the two cases of the checked read, and in bounds the two results of the compare. -/
theorem cmaComparesWordWithAcc : Obligations.CmaComparesWordWithAcc := by
  intro om a s
  refine ⟨rfl, fun hb => ?_, fun hb => (exec_cma a s).trans (withOperand_outOfBounds hb)⟩
  have hexec : exec (.cma a) s =
      .next { s with acc := compareResult (s.readWord a.toNat) s.acc, ip := s.ip + 3 } :=
    (exec_cma a s).trans (withOperand_setAccNext_fw hb fun m => compareResult m s.acc)
  refine ⟨fun heq => ?_, fun hne => ?_⟩
  · rw [hexec, compareResult_of_eq heq]
  · rw [hexec, compareResult_of_ne hne]

end Sys2Proof.Machine

namespace Sys2Proof.Machine

/-! ## The shape of the binary ALU instructions: `acc <- f(acc, word at a)` (spec/43_alu.md, spec/20_memory.md R39) -/

/-- With the word at `a` in bounds, `acc` and `ip` change and nothing else. -/
theorem accWithOperand_inBounds {a : Word} {s : State} (h : s.InBounds a.toNat) (f : Word → Word → Word) :
    accWithOperand f a s = .next { s with acc := f s.acc (s.readWord a.toNat), ip := s.ip + 3 } :=
  withOperand_setAccNext_fw h (f s.acc)

/-- With the word at `a` out of bounds, there is no operand and the instruction faults. -/
theorem accWithOperand_outOfBounds {a : Word} {s : State} (h : ¬ s.InBounds a.toNat) (f : Word → Word → Word) :
    accWithOperand f a s = raiseFatal .outOfBounds (a.setWidth 17) s :=
  withOperand_outOfBounds h

/-- What an instruction of this shape answers, for any description `P` of the value its operation delivers: both
cases of the bounds check. -/
theorem exec_of_accWithOperand {i : Instr} {f : Word → Word → Word} {a : Word} {s : State} {P : Word → Prop}
    (hexec : exec i s = accWithOperand f a s) (hvalue : P (f s.acc (s.readWord a.toNat))) :
    (s.InBounds a.toNat → ∃ r : Word, exec i s = .next { s with acc := r, ip := s.ip + 3 } ∧ P r) ∧
    (¬ s.InBounds a.toNat → exec i s = raiseFatal .outOfBounds (a.setWidth 17) s) :=
  ⟨fun hb => ⟨_, hexec.trans (accWithOperand_inBounds hb f), hvalue⟩,
    fun hb => hexec.trans (accWithOperand_outOfBounds hb f)⟩

theorem exec_add (a : Word) (s : State) : exec (.add a) s = accWithOperand aluAdd a s := rfl

theorem exec_sub (a : Word) (s : State) : exec (.sub a) s = accWithOperand aluSub a s := rfl

theorem exec_mul (a : Word) (s : State) : exec (.mul a) s = accWithOperand aluMul a s := rfl

theorem exec_and (a : Word) (s : State) : exec (.and a) s = accWithOperand (fun x m => x &&& m) a s := rfl

theorem exec_bor (a : Word) (s : State) : exec (.bor a) s = accWithOperand (fun x m => x ||| m) a s := rfl

theorem exec_xor (a : Word) (s : State) : exec (.xor a) s = accWithOperand (fun x m => x ^^^ m) a s := rfl

/-! ## The shape of the unary ALU instructions: `acc <- f(acc)` (spec/43_alu.md R88 to R90) -/

/-- The one-byte instructions that replace `acc` change it and `ip`, nothing else. -/
theorem setAccNext_f0 (v : Word) (s : State) : setAccNext v .f0 s = .next { s with acc := v, ip := s.ip + 1 } := rfl

theorem exec_inc (s : State) : exec .inc s = setAccNext (aluInc s.acc) .f0 s := rfl

theorem exec_dec (s : State) : exec .dec s = setAccNext (aluDec s.acc) .f0 s := rfl

theorem exec_not (s : State) : exec .not s = setAccNext (aluNot s.acc) .f0 s := rfl

/-- The complement is bitwise, for the 16 bits there are (R90). -/
theorem aluNot_getLsbD (x : Word) {k : Nat} (hk : k < 16) : (aluNot x).getLsbD k = !x.getLsbD k := by
  simp only [aluNot, BitVec.getLsbD_not, hk, decide_true, Bool.true_and]

/-! ## Arithmetic (spec/43_alu.md R83 to R85, R88, R89) -/

/-- Settles O15: ADD has the binary shape, and its value is the sum of R83. -/
theorem addAddsMemoryWordModulo : Obligations.AddAddsMemoryWordModulo :=
  fun _ a s => ⟨rfl, exec_of_accWithOperand (exec_add a s) (aluAdd_toNat s.acc _)⟩

/-- Settles O16: SUB has the binary shape, and its value is the difference of R84, `acc` first. -/
theorem subSubtractsMemoryWordModulo : Obligations.SubSubtractsMemoryWordModulo :=
  fun _ a s => ⟨rfl, exec_of_accWithOperand (exec_sub a s) (aluSub_toNat s.acc _)⟩

/-- Settles O17: MUL has the binary shape, and its value is the low word of the product of R85. -/
theorem mulKeepsLowProductWord : Obligations.MulKeepsLowProductWord :=
  fun _ a s => ⟨rfl, exec_of_accWithOperand (exec_mul a s) (aluMul_toNat s.acc _)⟩

/-- Settles O20: INC checks nothing, and its value is the sum of R88. -/
theorem incAddsOneModulo : Obligations.IncAddsOneModulo :=
  fun _ s => ⟨rfl, aluInc s.acc, (exec_inc s).trans (setAccNext_f0 _ s), aluInc_toNat s.acc⟩

/-- Settles O21: DEC checks nothing, and its value is the sum of R89. -/
theorem decSubtractsOneModulo : Obligations.DecSubtractsOneModulo :=
  fun _ s => ⟨rfl, aluDec s.acc, (exec_dec s).trans (setAccNext_f0 _ s), aluDec_toNat s.acc⟩

/-! ## Logic (spec/43_alu.md R90 to R93) -/

/-- Settles O22: NOT checks nothing; its value is described as a number and bit by bit. -/
theorem notComplementsEveryBit : Obligations.NotComplementsEveryBit :=
  fun _ s => ⟨rfl, aluNot s.acc, (exec_not s).trans (setAccNext_f0 _ s), aluNot_toNat s.acc,
    fun _ hk => aluNot_getLsbD s.acc hk⟩

/-- Settles O23: AND has the binary shape, with the bitwise conjunction as its operation. -/
theorem andIsBitwise : Obligations.AndIsBitwise :=
  fun _ a s => ⟨rfl, exec_of_accWithOperand (exec_and a s) fun _ _ => BitVec.getLsbD_and⟩

/-- Settles O24: BOR has the binary shape, with the bitwise disjunction as its operation. -/
theorem borIsBitwise : Obligations.BorIsBitwise :=
  fun _ a s => ⟨rfl, exec_of_accWithOperand (exec_bor a s) fun _ _ => BitVec.getLsbD_or⟩

/-- Settles O25: XOR has the binary shape, with the bitwise exclusive disjunction as its operation. -/
theorem xorIsBitwise : Obligations.XorIsBitwise :=
  fun _ a s => ⟨rfl, exec_of_accWithOperand (exec_xor a s) fun _ _ => BitVec.getLsbD_xor⟩

end Sys2Proof.Machine

namespace Sys2Proof.Machine

/-! ## Writing to and selecting a device (spec/44_device_io.md R98, R99, R101) -/

/-- WAW is the dispatched write of `acc` and the advance (R99). -/
theorem exec_waw (s : State) : exec .waw s = .next ((devWrite s.device s.acc s).advance Format.f0.length) := rfl

/-- On the console, the write emits the low byte of `acc`. -/
theorem exec_waw_console {s : State} (h : s.device = 0) :
    exec .waw s = .next ((s.emit s.acc).advance Format.f0.length) := by
  rw [exec_waw, devWrite_console h]

/-- On a device that is not there, the write only reports it (R98). -/
theorem exec_waw_unknown {s : State} (h : s.device ≠ 0) :
    exec .waw s = .next ((s.report .unknownDeviceWrite s.device).advance Format.f0.length) := by
  rw [exec_waw, devWrite_unknown h]

/-- SEL is the selection and the advance, with no check of the id (R101). -/
theorem exec_sel (id : Byte) (s : State) :
    exec (.sel id) s = .next ((s.setDevice id).advance Format.fb.length) := rfl

/-- Settles O26: the two cases of the dispatched write; the emission changes only the output, the report only the
incidents. -/
theorem wawWritesSelectedDevice : Obligations.WawWritesSelectedDevice :=
  fun _ _ => ⟨rfl, exec_waw_console, exec_waw_unknown⟩

/-- Settles O29: SEL has one case, the selection. -/
theorem selSelectsAnyDevice : Obligations.SelSelectsAnyDevice :=
  fun _ id s => ⟨rfl, exec_sel id s⟩

end Sys2Proof.Machine

namespace Sys2Proof

/-! ## Encoding and decoding are inverse (spec/30_encoding.md R50 to R55) -/

/-- The operand laws of all instructions at once: operand bytes read under their own opcode give the instruction. -/
theorem decodeOperands_operandBytes (i : Instr) (rest : List Byte) :
    decodeOperands i.mnemonic (i.operandBytes ++ rest) = some (i, rest) := by
  cases i with
  | nop => exact Laws.OperandRoundTrip.nop rest
  | psh v => exact Laws.OperandRoundTrip.psh v rest
  | pop => exact Laws.OperandRoundTrip.pop rest
  | lsp a => exact Laws.OperandRoundTrip.lsp a rest
  | ssp a => exact Laws.OperandRoundTrip.ssp a rest
  | jmp t => exact Laws.OperandRoundTrip.jmp t rest
  | jnz t => exact Laws.OperandRoundTrip.jnz t rest
  | lca a => exact Laws.OperandRoundTrip.lca a rest
  | sca a => exact Laws.OperandRoundTrip.sca a rest
  | cmp a1 a2 => exact Laws.OperandRoundTrip.cmp a1 a2 rest
  | add a => exact Laws.OperandRoundTrip.add a rest
  | sub a => exact Laws.OperandRoundTrip.sub a rest
  | mul a => exact Laws.OperandRoundTrip.mul a rest
  | div a => exact Laws.OperandRoundTrip.div a rest
  | mod a => exact Laws.OperandRoundTrip.mod a rest
  | waw => exact Laws.OperandRoundTrip.waw rest
  | raw => exact Laws.OperandRoundTrip.raw rest
  | sel id => exact Laws.OperandRoundTrip.sel id rest
  | ldc v => exact Laws.OperandRoundTrip.ldc v rest
  | inc => exact Laws.OperandRoundTrip.inc rest
  | dec => exact Laws.OperandRoundTrip.dec rest
  | not => exact Laws.OperandRoundTrip.not rest
  | and a => exact Laws.OperandRoundTrip.and a rest
  | bor a => exact Laws.OperandRoundTrip.bor a rest
  | xor a => exact Laws.OperandRoundTrip.xor a rest
  | pac => exact Laws.OperandRoundTrip.pac rest
  | cma a => exact Laws.OperandRoundTrip.cma a rest
  | hlt => exact Laws.OperandRoundTrip.hlt rest

/-- An injective map looks up the opcode that was encoded, and the operands then follow. -/
theorem decode_encode {om : OpcodeMap} (hom : om.injective = true) (i : Instr) (rest : List Byte) :
    decode om (encode om i ++ rest) = .instr i rest :=
  decode_of_operands (OpcodeMap.opcodeOf_byteOf hom i.mnemonic) (decodeOperands_operandBytes i rest)

/-- Settles O40: decoding inverts encoding for every operand value, since every instruction is well formed (R58). -/
theorem decodeEncodeRoundTrip : Obligations.DecodeEncodeRoundTrip :=
  fun _ i rest hom _ => decode_encode hom i rest

/-- What the operands of an opcode were read from, one case per operand shape (R51). -/
theorem decodeOperands_eq_some {m : Mnemonic} {bs rest : List Byte} {i : Instr}
    (h : decodeOperands m bs = some (i, rest)) : i.mnemonic = m ∧ bs = i.operandBytes ++ rest := by
  cases m
  case nop | pop | waw | raw | inc | dec | not | pac | hlt =>
    cases h
    exact ⟨rfl, rfl⟩
  case sel =>
    obtain ⟨id, rfl, rfl⟩ := takeByte_eq_some h
    exact ⟨rfl, rfl⟩
  case cmp =>
    obtain ⟨a1, a2, rfl, rfl⟩ := takeTwoWords_eq_some h
    exact ⟨rfl, rfl⟩
  case psh | lsp | ssp | jmp | jnz | lca | sca | add | sub | mul | div | mod | ldc | and | bor | xor | cma =>
    obtain ⟨w, rfl, rfl⟩ := takeWord_eq_some h
    exact ⟨rfl, rfl⟩

/-- Bytes that decode to an instruction begin with its encoding. -/
theorem eq_encode_of_decode {om : OpcodeMap} {bs rest : List Byte} {i : Instr}
    (h : decode om bs = .instr i rest) : bs = encode om i ++ rest := by
  rcases decode_cases om bs with ⟨-, hd⟩ | ⟨op, tail, -, -, hd⟩ | ⟨op, tail, m, -, -, -, hd⟩ |
    ⟨op, tail, m, j, tail', hbs, hop, hargs, hd⟩ <;> rw [hd] at h
  · cases h
  · cases h
  · cases h
  · cases h
    obtain ⟨hm, rfl⟩ := decodeOperands_eq_some hargs
    rw [hbs, encode, hm, OpcodeMap.byteOf_of_opcodeOf hop, List.cons_append]

/-- Settles O41: the bytes read are the encoding, whose length is the instruction's. -/
theorem encodeDecodeRoundTrip : Obligations.EncodeDecodeRoundTrip := by
  intro om bs i rest h
  have hbs : bs = encode om i ++ rest := eq_encode_of_decode h
  exact ⟨hbs, by rw [hbs, List.length_append, encode_length]⟩

/-! ## What the decoder rejects (spec/30_encoding.md R55, R57; spec/60_exceptions.md R107) -/

/-- The answer for an unrecognized byte does not depend on what follows it (R57). -/
theorem decode_unknownOpcode {om : OpcodeMap} {op : Byte} (h : om.opcodeOf op = none) (rest : List Byte) :
    decode om (op :: rest) = .unknownOpcode op := by
  simp only [decode, h]

/-- An opcode with fewer bytes after it than its operands take is truncated (R64). -/
theorem decode_truncated {om : OpcodeMap} (hom : om.injective = true) {m : Mnemonic} {rest : List Byte}
    (h : rest.length < m.format.operandSize) : decode om (om.byteOf m :: rest) = .truncated m := by
  simp only [decode, OpcodeMap.opcodeOf_byteOf hom, decodeOperands_eq_none.mpr h]

/-- Settles O42: the three rejections, in the order of R107. -/
theorem decoderRejectsByName : Obligations.DecoderRejectsByName :=
  fun _ hom => ⟨rfl, fun _ rest hop => decode_unknownOpcode (OpcodeMap.opcodeOf_eq_none.mpr hop) rest,
    fun _ _ hshort => decode_truncated hom hshort⟩

/-- The decoder calls a byte unrecognized exactly when the map gives it no opcode. -/
theorem decode_eq_unknownOpcode_iff {om : OpcodeMap} {op : Byte} {rest : List Byte} :
    decode om (op :: rest) = .unknownOpcode op ↔ om.opcodeOf op = none := by
  refine ⟨fun h => ?_, fun h => decode_unknownOpcode h rest⟩
  rcases decode_cases om (op :: rest) with ⟨hnil, -⟩ | ⟨op', tail, hbs, hop, -⟩ | ⟨_, _, _, -, -, -, hd⟩ |
    ⟨_, _, _, _, _, -, -, -, hd⟩
  · cases hnil
  · cases hbs
    exact hop
  · cases hd.symm.trans h
  · cases hd.symm.trans h

/-! ## The default opcode map (spec/30_encoding.md R56) -/

/-- The default map gives the table's opcodes the bytes 0x00 to 0x1B in table order. -/
theorem OpcodeMap.default_bytes :
    Mnemonic.all.map OpcodeMap.default.byteOf = (List.range 0x1C).map (BitVec.ofNat 8) := rfl

/-- Some opcode has the byte `op` under the default map exactly when `op` is below 0x1C. -/
theorem OpcodeMap.exists_default_byteOf_iff {op : Byte} :
    (∃ m, OpcodeMap.default.byteOf m = op) ↔ op.toNat < 0x1C := by
  have hmem : (∃ m, OpcodeMap.default.byteOf m = op) ↔ op ∈ Mnemonic.all.map OpcodeMap.default.byteOf := by
    simp only [List.mem_map, Mnemonic.mem_all, true_and]
  rw [hmem, OpcodeMap.default_bytes, List.mem_map]
  constructor
  · rintro ⟨k, hk, rfl⟩
    have hk : k < 0x1C := List.mem_range.mp hk
    rw [BitVec.toNat_ofNat]
    omega
  · exact fun h => ⟨op.toNat, List.mem_range.mpr h, (BitVec.ofNat_toNat 8 op).trans (BitVec.setWidth_eq op)⟩

/-- Settles O43: the decoder runs on the spec's byte strings. -/
theorem defaultMapDecodesTableBytes : Obligations.DefaultMapDecodesTableBytes :=
  ⟨rfl, rfl, rfl, rfl, rfl, rfl, rfl⟩

/-- Settles O44: the unrecognized bytes are those outside the table's run of bytes. -/
theorem defaultMapLeavesHighBytesUnrecognized : Obligations.DefaultMapLeavesHighBytesUnrecognized := by
  intro op rest
  rw [decode_eq_unknownOpcode_iff, OpcodeMap.opcodeOf_eq_none, ← not_exists, OpcodeMap.exists_default_byteOf_iff,
    Nat.not_lt]

/-! ## Written instructions (spec/30_encoding.md R60) -/

/-- What the check of R60 says, per format: the number of operands and the range of each. -/
theorem WrittenInstr.wellFormed_cases {w : WrittenInstr} (h : w.wellFormed = true) :
    (w.mnemonic.format = .f0 ∧ w.operands = []) ∨
    (w.mnemonic.format = .fb ∧ ∃ id : Byte, w.operands = [id.toNat]) ∨
    (w.mnemonic.format = .fw ∧ ∃ x : Word, w.operands = [x.toNat]) ∨
    (w.mnemonic.format = .fww ∧ ∃ x1 x2 : Word, w.operands = [x1.toNat, x2.toNat]) := by
  unfold WrittenInstr.wellFormed at h
  split at h
  case h_1 hf ho => exact .inl ⟨hf, ho⟩
  case h_2 id hf ho => exact .inr (.inl ⟨hf, BitVec.ofNatLT id (of_decide_eq_true h), ho⟩)
  case h_3 x hf ho => exact .inr (.inr (.inl ⟨hf, BitVec.ofNatLT x (of_decide_eq_true h), ho⟩))
  case h_4 x1 x2 hf ho =>
    obtain ⟨h1, h2⟩ := Bool.and_eq_true_iff.mp h
    exact .inr (.inr (.inr ⟨hf, BitVec.ofNatLT x1 (of_decide_eq_true h1),
      BitVec.ofNatLT x2 (of_decide_eq_true h2), ho⟩))
  case h_5 => cases h

end Sys2Proof

namespace Sys2Proof.Machine

/-! ## The instruction of a written instruction (spec/30_encoding.md R60, decision D22) -/

/-- The operand bytes a written instruction stands for: its numbers cut to the width of its format. -/
def writtenBytes (w : WrittenInstr) : List Byte :=
  match w.mnemonic.format with
  | .fb => w.operands.map fun n => BitVec.ofNat 8 n
  | _   => w.operands.flatMap fun n => wordBytes (BitVec.ofNat 16 n)

/-- A written instruction that passes the check is what its operand bytes decode to. -/
theorem instrOfWritten_of_wellFormed {w : WrittenInstr} (h : w.wellFormed = true) :
    instrOfWritten w = (decodeOperands w.mnemonic (writtenBytes w)).map (·.1) := if_pos h

/-- Writing an instruction down keeps its operand bytes. -/
theorem writtenBytes_written (i : Instr) : writtenBytes i.written = i.operandBytes := by
  cases i <;> simp [writtenBytes, Instr.written, Instr.mnemonic, Mnemonic.format, Instr.operandBytes]

/-- The numbers that operand bytes of a format stand for: what `writtenBytes` is undone by. -/
def numbersOfBytes : Format → List Byte → List Nat
  | .fb,  b :: _                        => [b.toNat]
  | .fw,  lo :: hi :: _                 => [(wordOfBytes lo hi).toNat]
  | .fww, lo1 :: hi1 :: lo2 :: hi2 :: _ => [(wordOfBytes lo1 hi1).toNat, (wordOfBytes lo2 hi2).toNat]
  | _,    _                             => []

/-- The numbers of a written instruction in range can be read off its operand bytes, whatever follows these. -/
theorem numbersOfBytes_writtenBytes {w : WrittenInstr} (h : w.wellFormed = true) (rest : List Byte) :
    numbersOfBytes w.mnemonic.format (writtenBytes w ++ rest) = w.operands := by
  rcases WrittenInstr.wellFormed_cases h with ⟨hf, ho⟩ | ⟨hf, id, ho⟩ | ⟨hf, x, ho⟩ | ⟨hf, x1, x2, ho⟩
  · simp [writtenBytes, hf, ho, numbersOfBytes]
  · simp [writtenBytes, hf, ho, numbersOfBytes]
  · simp [writtenBytes, hf, ho, numbersOfBytes, wordBytes]
  · simp [writtenBytes, hf, ho, numbersOfBytes, wordBytes]

/-- Settles O45. An instruction's written form decodes to it by the operand laws; and what a written instruction
decodes to has its operand bytes, from which its numbers are read off again. -/
theorem writtenInstrAssemblesExactly : Obligations.WrittenInstrAssemblesExactly := by
  intro w i
  constructor
  · intro h
    have hwf : w.wellFormed = true := Decidable.byContradiction fun hwf => by
      rw [instrOfWritten, if_neg hwf] at h
      cases h
    rw [instrOfWritten_of_wellFormed hwf, Option.map_eq_some_iff] at h
    obtain ⟨⟨j, rest⟩, hdec, rfl⟩ := h
    obtain ⟨hm, hbytes⟩ := decodeOperands_eq_some hdec
    have hops : w.operands = j.written.operands := by
      calc w.operands
          = numbersOfBytes w.mnemonic.format (writtenBytes w ++ []) := (numbersOfBytes_writtenBytes hwf []).symm
        _ = numbersOfBytes j.mnemonic.format (writtenBytes j.written ++ rest) := by
            rw [List.append_nil, hbytes, hm, writtenBytes_written]
        _ = j.written.operands := numbersOfBytes_writtenBytes j.wellFormed_eq_true rest
    cases w
    cases hm
    cases hops
    rfl
  · rintro rfl
    rw [instrOfWritten_of_wellFormed i.wellFormed_eq_true, writtenBytes_written, ← List.append_nil i.operandBytes]
    exact congrArg (Option.map (·.1)) (decodeOperands_operandBytes i [])

end Sys2Proof.Machine

namespace Sys2Proof.Machine

/-! ## What `exec` and a step did, read off the state they answered (spec/60_exceptions.md R103, R107) -/

/-- What an instruction that answered `t` did: it took the fault of the table and nothing else, or it had its plain
effect. -/
theorem exec_effect {i : Instr} {s t : State} (h : exec i s = .next t) :
    (∃ k n, fatalCause i s = some (k, n) ∧ t = s.faultWith k (BitVec.ofNat 17 n)) ∨
    (fatalCause i s = none ∧ PlainEffect i s t) := by
  rcases exec_cases i s with ⟨k, n, hcause, -, hfault⟩ | ⟨hcause, u, hnext, heffect⟩
  · cases hfault.symm.trans h
    exact .inl ⟨k, n, hcause, rfl⟩
  · cases hnext.symm.trans h
    exact .inr ⟨hcause, heffect⟩

/-- What a step did, whatever its instruction: a fatal fault and nothing else, the report of an unrecognized byte, or
the plain effect of the instruction fetched. -/
theorem step_effect {s t : State} (h : step s = .next t) :
    s.admitted = true ∧ s.status = .running ∧
    ((∃ k info, t = s.faultWith k info) ∨
      (∃ op, fetch s = .unknownOpcode op ∧ t = (s.report .unknownOpcode op).advance 1) ∨
      (∃ i rest, fetch s = .instr i rest ∧ PlainEffect i s t)) := by
  obtain ⟨hadm, hrun, ⟨-, rfl⟩ | ⟨op, hf, rfl⟩ | ⟨i, rest, hf, hexec⟩⟩ := step_cases h
  · exact ⟨hadm, hrun, .inl ⟨_, _, rfl⟩⟩
  · exact ⟨hadm, hrun, .inr (.inl ⟨op, hf, rfl⟩)⟩
  · rcases exec_effect hexec with ⟨k, n, -, rfl⟩ | ⟨-, heffect⟩
    · exact ⟨hadm, hrun, .inl ⟨_, _, rfl⟩⟩
    · exact ⟨hadm, hrun, .inr (.inr ⟨i, rest, hf, heffect⟩)⟩

/-- A plain effect is no fault: a core that ran goes on or has halted. -/
theorem PlainEffect.status_ne_faulted {i : Instr} {s t : State} (heffect : PlainEffect i s t)
    (hs : s.status ≠ .faulted) : t.status ≠ .faulted := by
  rcases heffect.status with h | ⟨-, h⟩ <;> rw [h]
  · exact hs
  · exact RunStatus.noConfusion

/-- Settles O51: the two answers of `exec`; a plain effect keeps the fault record and does not fault. -/
theorem fatalFaultsExactlyByTable : Obligations.FatalFaultsExactlyByTable := by
  intro i s
  rcases exec_cases i s with ⟨k, n, hcause, hn, hfault⟩ | ⟨hcause, t, hnext, heffect⟩
  · refine ⟨fun k' n' hcause' => ?_, fun hnone => ?_⟩
    · cases hcause.symm.trans hcause'
      exact ⟨hfault, hn⟩
    · cases hcause.symm.trans hnone
  · refine ⟨fun k' n' hcause' => ?_, fun _ => ⟨t, hnext, heffect.fault, fun ht => ?_⟩⟩
    · cases hcause.symm.trans hcause'
    · exact Decidable.byContradiction fun hs => heffect.status_ne_faulted hs ht

/-- Settles O52: the report keeps RUNNING and a plain effect is no fault, which leaves the fault alone. -/
theorem fatalFaultsArePrecise : Obligations.FatalFaultsArePrecise := by
  intro s t hstep ht
  obtain ⟨-, hrun, ⟨k, info, rfl⟩ | ⟨op, -, rfl⟩ | ⟨i, rest, -, heffect⟩⟩ := step_effect hstep
  · exact ⟨k, info, rfl⟩
  · cases hrun.symm.trans ht
  · exact absurd ht (heffect.status_ne_faulted (by simp [hrun]))

/-- Settles O53: neither a fault nor the report halts, and of the plain effects only that of HLT. -/
theorem haltedOnlyByHlt : Obligations.HaltedOnlyByHlt := by
  intro s t hstep ht
  obtain ⟨-, hrun, ⟨k, info, rfl⟩ | ⟨op, -, rfl⟩ | ⟨i, rest, hf, heffect⟩⟩ := step_effect hstep
  · cases ht
  · cases hrun.symm.trans ht
  · rcases heffect.status with hsame | ⟨rfl, -⟩
    · cases hrun.symm.trans (hsame.symm.trans ht)
    · exact ⟨rest, hf⟩

/-- Only HLT ends a run without a fault (R19). -/
theorem PlainEffect.status_eq {i : Instr} {s t : State} (heffect : PlainEffect i s t) (hi : i ≠ .hlt) :
    t.status = s.status := by
  rcases heffect.status with hsame | ⟨hhlt, -⟩
  · exact hsame
  · exact absurd hhlt hi

/-- Settles O54: a fault reports nothing, an unrecognized byte is one report, and WAW and RAW, which do not halt,
report at most one. -/
theorem incidentLogOnlyGrows : Obligations.IncidentLogOnlyGrows := by
  intro s t hstep
  obtain ⟨-, hrun, ⟨k, info, rfl⟩ | ⟨op, -, rfl⟩ | ⟨i, rest, -, heffect⟩⟩ := step_effect hstep
  · exact .inl rfl
  · exact .inr ⟨⟨.unknownOpcode, s.ip, op⟩, rfl, rfl, hrun, rfl⟩
  · rcases heffect.incidents with hsame | ⟨rfl, -, happ⟩ | ⟨rfl, -, happ⟩
    · exact .inl hsame
    · exact .inr ⟨_, happ, rfl, (heffect.status_eq Instr.noConfusion).trans hrun, heffect.fault⟩
    · exact .inr ⟨_, happ, rfl, (heffect.status_eq Instr.noConfusion).trans hrun, heffect.fault⟩

/-- Settles O55: a fault changes none of the four, and a plain effect names their writers. -/
theorem registersWrittenOnlyByTheirInstructions : Obligations.RegistersWrittenOnlyByTheirInstructions := by
  intro i s t hexec
  rcases exec_effect hexec with ⟨k, n, -, rfl⟩ | ⟨-, heffect⟩
  · exact ⟨fun h => absurd rfl h, fun h => absurd rfl h, fun h => absurd rfl h, fun h => absurd rfl h⟩
  · refine ⟨heffect.acc.resolve_left, heffect.sp.resolve_left, fun hne => ?_, heffect.output.resolve_left⟩
    obtain ⟨id, rfl, hid⟩ := heffect.device.resolve_left hne
    rw [hid]

/-- Settles O56: a fault writes no memory, and a plain effect at most the word at `storeAddress`. -/
theorem memoryWrittenOnlyAtStoreAddress : Obligations.MemoryWrittenOnlyAtStoreAddress := by
  intro i s t hexec
  rcases exec_effect hexec with ⟨k, n, -, rfl⟩ | ⟨-, heffect⟩
  · exact ⟨fun _ _ _ _ _ => rfl, fun _ _ => rfl, sameLaunch_of_exec hexec⟩
  · rcases heffect.memory with hmem | ⟨a, v, ha, -, hmem⟩
    · have hsame : SameMemory s t := fun b => congrArg (Memory.readByte · b) hmem
      exact ⟨fun _ _ b _ _ => hsame b, fun _ => hsame, heffect.launch⟩
    · have hsame : SameMemory (s.writeWord a v) t := fun b => congrArg (Memory.readByte · b) hmem
      refine ⟨fun a' ha' b hlow hhigh => ?_, fun hnone => ?_, heffect.launch⟩
      · cases ha.symm.trans ha'
        exact (hsame b).trans (sameMemoryOutside_writeWord s a v b hlow hhigh)
      · cases ha.symm.trans hnone

/-! ## The instruction at `ip` lies within the program (spec/40_loop_and_control.md R62 to R65) -/

/-- An instruction that was fetched ends at or before `PROG_LEN` (R65). -/
theorem ip_add_length_le_of_fetch {s : State} {i : Instr} {rest : List Byte} (hf : fetch s = .instr i rest) :
    s.ip.toNat + i.length ≤ s.prog.length := by
  have hbytes : s.prog.drop s.ip.toNat = encode s.opcodeMap i ++ rest := eq_encode_of_decode hf
  have hlen := congrArg List.length hbytes
  have hpos : 0 < i.length := Nat.add_pos_left Nat.one_pos _
  rw [List.length_drop, List.length_append, encode_length] at hlen
  omega

/-- An unrecognized byte that was fetched is one of the program. -/
theorem ip_lt_of_fetch_unknownOpcode {s : State} {op : Byte} (hf : fetch s = .unknownOpcode op) :
    s.ip.toNat < s.prog.length := by
  rcases Nat.lt_or_ge s.ip.toNat s.prog.length with hlt | hpast
  · exact hlt
  · cases (fetch_past_program hpast).symm.trans hf

/-- Adding to `ip` what stays within 65536 does not wrap its 17 bits. -/
theorem ip_add_toNat {ip : Offset} {n : Nat} (h : ip.toNat + n ≤ 65536) :
    (ip + BitVec.ofNat 17 n).toNat = ip.toNat + n := by
  rw [BitVec.toNat_add, BitVec.toNat_ofNat]
  omega

/-- The advance over an instruction of an admitted program is exact (R65). -/
theorem ip_advance_toNat {s : State} {i : Instr} {rest : List Byte} (hadm : s.admitted = true)
    (hf : fetch s = .instr i rest) : (s.ip + BitVec.ofNat 17 i.length).toNat = s.ip.toNat + i.length := by
  obtain ⟨hprog, -, -, -⟩ := State.admitted_iff.mp hadm
  exact ip_add_toNat (Nat.le_trans (ip_add_length_le_of_fetch hf) hprog)

/-- Settles O59: of the three ways `ip` moves, the hypotheses leave the advance, and the program bounds it. -/
theorem sequentialAdvanceNeverWraps : Obligations.SequentialAdvanceNeverWraps := by
  intro s t i rest hinv hf hstep hok hjump hwait
  change fetch s = .instr i rest at hf
  obtain ⟨-, -, ⟨k, info, rfl⟩ | ⟨op, hf', -⟩ | ⟨j, rest', hf', heffect⟩⟩ := step_effect hstep
  · exact absurd rfl hok
  · cases hf.symm.trans hf'
  · cases hf.symm.trans hf'
    have hip : t.ip = s.ip + BitVec.ofNat 17 i.length := by
      rcases heffect.ip with h | ⟨d, rfl | rfl, -⟩ | ⟨rfl, hw, -⟩
      · exact h
      · cases hjump
      · cases hjump
      · exact absurd ⟨rfl, hw⟩ hwait
    have hnext : t.ip.toNat = s.ip.toNat + i.length := by rw [hip, ip_advance_toNat hinv.admitted hf]
    exact ⟨hnext, hnext ▸ ip_add_length_le_of_fetch hf⟩

/-! ## The invariant (spec/00_scope.md R6, spec/10_state.md R14, R20, spec/20_memory.md R31) -/

/-- Admission speaks of the launch parameters alone. -/
theorem State.admitted_of_sameLaunch {s t : State} (h : SameLaunch s t) : t.admitted = s.admitted := by
  obtain ⟨hprog, hsize, hmap, heof⟩ := h
  rw [State.admitted, State.admitted, hprog, hsize, hmap, heof]

/-- The part of the invariant a fatal fault touches is the fault record, which it writes with the status. -/
theorem State.Inv.faultWith {s : State} (h : s.Inv) (k : FatalKind) (info : Offset) : (s.faultWith k info).Inv where
  admitted := h.admitted
  memCanonical := h.memCanonical
  memWithin := h.memWithin
  ipInRange := h.ipInRange
  faultRecord := ⟨fun _ => rfl, fun _ => rfl⟩

/-- A byte of the program is skipped within 65536. -/
theorem State.Inv.skipUnknown {s : State} {op : Byte} (h : s.Inv) (hf : fetch s = .unknownOpcode op) :
    ((s.report .unknownOpcode op).advance 1).Inv where
  admitted := h.admitted
  memCanonical := h.memCanonical
  memWithin := h.memWithin
  ipInRange := by
    obtain ⟨hprog, -, -, -⟩ := State.admitted_iff.mp h.admitted
    have hnext : s.ip.toNat + 1 ≤ 65536 := Nat.le_trans (ip_lt_of_fetch_unknownOpcode hf) hprog
    exact Nat.le_trans (Nat.le_of_eq (ip_add_toNat hnext)) hnext
  faultRecord := h.faultRecord

/-- A plain effect stores inside `MEM_SIZE` if at all, and a store keeps the canonical form. -/
theorem PlainEffect.memInv {i : Instr} {s t : State} (heffect : PlainEffect i s t)
    (hwf : Memory.wf s.mem = true) (hin : Memory.within s.memSize s.mem = true) :
    Memory.wf t.mem = true ∧ Memory.within s.memSize t.mem = true := by
  rcases heffect.memory with hmem | ⟨a, v, -, hb, hmem⟩ <;> rw [hmem]
  · exact ⟨hwf, hin⟩
  · exact ⟨State.writeWord_memCanonical hwf a v, State.writeWord_memWithin hin hb v⟩

/-- A plain effect leaves `ip` within 65536: it advances inside the program, takes a 16-bit target, or waits. -/
theorem PlainEffect.ipInRange {i : Instr} {s t : State} {rest : List Byte} (heffect : PlainEffect i s t) (h : s.Inv)
    (hf : fetch s = .instr i rest) : t.ip.toNat ≤ 65536 := by
  rcases heffect.ip with hip | ⟨d, -, hip⟩ | ⟨-, -, hip⟩ <;> rw [hip]
  · obtain ⟨hprog, -, -, -⟩ := State.admitted_iff.mp h.admitted
    rw [ip_advance_toNat h.admitted hf]
    exact Nat.le_trans (ip_add_length_le_of_fetch hf) hprog
  · rw [extend_toNat]
    omega
  · exact h.ipInRange

/-- The plain effect of the instruction fetched keeps the invariant. -/
theorem State.Inv.plainEffect {i : Instr} {s t : State} {rest : List Byte} (h : s.Inv) (hrun : s.status = .running)
    (hf : fetch s = .instr i rest) (heffect : PlainEffect i s t) : t.Inv := by
  have hs : s.status ≠ .faulted := by simp [hrun]
  obtain ⟨hwf, hin⟩ := heffect.memInv h.memCanonical h.memWithin
  obtain ⟨-, hsize, -, -⟩ := heffect.launch
  exact {
    admitted := (State.admitted_of_sameLaunch heffect.launch).trans h.admitted
    memCanonical := hwf
    memWithin := by rwa [hsize]
    ipInRange := heffect.ipInRange h hf
    faultRecord := by
      rw [heffect.fault, h.faultRecord]
      exact iff_of_false hs (heffect.status_ne_faulted hs) }

/-- Settles O38: each of the three things a step can do keeps the invariant. -/
theorem stepKeepsInvariant : Obligations.StepKeepsInvariant := by
  intro s t hinv hstep
  obtain ⟨-, hrun, ⟨k, info, rfl⟩ | ⟨op, hf, rfl⟩ | ⟨i, rest, hf, heffect⟩⟩ := step_effect hstep
  · exact hinv.faultWith k info
  · exact hinv.skipUnknown hf
  · exact hinv.plainEffect hrun hf heffect

/-- The launch parameters stay the same from step to step. -/
theorem SameLaunch.trans {s t u : State} (hst : SameLaunch s t) (htu : SameLaunch t u) : SameLaunch s u := by
  obtain ⟨hprog, hsize, hmap, heof⟩ := hst
  obtain ⟨hprog', hsize', hmap', heof'⟩ := htu
  exact ⟨hprog'.trans hprog, hsize'.trans hsize, hmap'.trans hmap, heof'.trans heof⟩

/-- Settles O39, by induction on the steps of the run. -/
theorem reachedStatesKeepInvariantAndProgram : Obligations.ReachedStatesKeepInvariantAndProgram := by
  intro s t hinv hreach
  induction hreach with
  | here => exact ⟨hinv, rfl, rfl, rfl, rfl⟩
  | next _ hstep ih =>
    obtain ⟨hinv', hsame⟩ := ih
    exact ⟨stepKeepsInvariant _ _ hinv' hstep, hsame.trans (sameLaunch_of_step hstep)⟩

end Sys2Proof.Machine

namespace Sys2Proof.Machine

/-! ## Pushing and popping (spec/41_stack.md R72, R73, R76) -/

/-- The state a push of `v` leaves, by an instruction of `n` bytes (R72). -/
def State.pushed (v : Word) (n : Nat) (s : State) : State :=
  ((s.setSp (wrap16 (s.sp.toNat + 1))).writeWord (s.sp.toNat + 1) v).advance n

/-- The state a POP leaves (R73). -/
def State.popped (s : State) : State :=
  ((s.setAcc (s.readWord s.sp.toNat)).setSp (wrap16 (65535 + s.sp.toNat))).advance Format.f0.length

theorem pushWord_inBounds {s : State} (h : s.InBounds (s.sp.toNat + 1)) (v : Word) (n : Nat) :
    pushWord v n s = .next (s.pushed v n) := if_pos h

theorem pushWord_outOfBounds {s : State} (h : ¬ s.InBounds (s.sp.toNat + 1)) (v : Word) (n : Nat) :
    pushWord v n s = raiseFatal .stackOverflow (BitVec.ofNat 17 (s.sp.toNat + 1)) s := if_neg h

theorem exec_psh (v : Word) (s : State) : exec (.psh v) s = pushWord v 3 s := rfl

theorem exec_pac (s : State) : exec .pac s = pushWord s.acc 1 s := rfl

theorem exec_pop_inBounds {s : State} (h : s.InBounds s.sp.toNat) : exec .pop s = .next s.popped := if_pos h

theorem exec_pop_outOfBounds {s : State} (h : ¬ s.InBounds s.sp.toNat) :
    exec .pop s = raiseFatal .outOfBounds (s.sp.setWidth 17) s := if_neg h

/-- A push within a memory of at most 65536 bytes does not wrap `sp` (decision D6). -/
theorem State.pushed_sp_toNat {s : State} (hsize : s.memSize ≤ 65536) (h : s.InBounds (s.sp.toNat + 1))
    (v : Word) (n : Nat) : (s.pushed v n).sp.toNat = s.sp.toNat + 1 := by
  change (wrap16 (s.sp.toNat + 1)).toNat = s.sp.toNat + 1
  rw [wrap16_toNat]
  omega

/-- The word pushed lies above the old `sp`. -/
theorem State.holdsWord_pushed {s : State} (hwf : Memory.wf s.mem = true) (v : Word) (n : Nat) :
    HoldsWord (s.pushed v n) (s.sp.toNat + 1) v :=
  holdsWord_writeWord (s := s.setSp _) hwf _ v

/-- A push writes its word only. -/
theorem State.sameMemoryOutside_pushed (s : State) (v : Word) (n : Nat) :
    SameMemoryOutside (s.sp.toNat + 1) s (s.pushed v n) :=
  sameMemoryOutside_writeWord (s.setSp _) _ v

/-- A push keeps the canonical form. -/
theorem State.pushed_memCanonical {s : State} (hwf : Memory.wf s.mem = true) (v : Word) (n : Nat) :
    Memory.wf (s.pushed v n).mem = true :=
  State.writeWord_memCanonical (s := s.setSp _) hwf _ v

/-- A word that lies at an address is what a word read there gives (R33). -/
theorem State.readWord_of_holdsWord {s : State} {a : Nat} {v : Word} (h : HoldsWord s a v) : s.readWord a = v := by
  obtain ⟨hlow, hhigh⟩ := h
  rw [State.readWord, hlow, hhigh]
  exact wordOfBytes_loByte_hiByte v

/-- `sp` moves back by one, modulo 65536 (decision D5). -/
theorem State.popped_sp_toNat (s : State) : s.popped.sp.toNat = (s.sp.toNat + 65535) % 65536 :=
  (wrap16_toNat _).trans (by rw [Nat.add_comm])

/-- Where `sp` is not 0, POP lowers it by one. -/
theorem State.popped_sp_toNat_of_succ {s : State} {n : Nat} (h : s.sp.toNat = n + 1) : s.popped.sp.toNat = n := by
  rw [State.popped_sp_toNat]
  omega

/-- What a push of `v` that fits answers: the word above the old `sp`, and its frame. -/
theorem exec_of_pushWord_inBounds {i : Instr} {s : State} {v : Word} {n : Nat} (hexec : exec i s = pushWord v n s)
    (hwf : Memory.wf s.mem = true) (hsize : s.memSize ≤ 65536) (hb : s.InBounds (s.sp.toNat + 1)) :
    ∃ t, exec i s = .next t ∧ t.sp.toNat = s.sp.toNat + 1 ∧ t.ip = s.ip + BitVec.ofNat 17 n ∧
      HoldsWord t (s.sp.toNat + 1) v ∧ SameMemoryOutside (s.sp.toNat + 1) s t ∧
      t.acc = s.acc ∧ t.device = s.device ∧ SameRun s t ∧ SameLaunch s t ∧ SameConsole s t :=
  ⟨s.pushed v n, hexec.trans (pushWord_inBounds hb v n), State.pushed_sp_toNat hsize hb v n, rfl,
    State.holdsWord_pushed hwf v n, s.sameMemoryOutside_pushed v n, rfl, rfl, ⟨rfl, rfl, rfl⟩, ⟨rfl, rfl, rfl, rfl⟩,
    ⟨rfl, rfl, rfl, rfl⟩⟩

/-- Settles O5: PSH is the push of its immediate, in both cases of the bound. -/
theorem pshPushesImmediateWord : Obligations.PshPushesImmediateWord :=
  fun _ v s => ⟨rfl, exec_of_pushWord_inBounds (exec_psh v s),
    fun hb => (exec_psh v s).trans (pushWord_outOfBounds hb v 3)⟩

/-- Settles O9: PAC is the push of `acc`, in both cases of the bound. -/
theorem pacPushesAccumulator : Obligations.PacPushesAccumulator :=
  fun _ s => ⟨rfl, exec_of_pushWord_inBounds (exec_pac s),
    fun hb => (exec_pac s).trans (pushWord_outOfBounds hb s.acc 1)⟩

/-- Settles O6: the two cases of the checked read at `sp`. -/
theorem popReadsWordThenDecrementsSp : Obligations.PopReadsWordThenDecrementsSp :=
  fun _ s => ⟨rfl, fun hb => ⟨s.popped.sp, exec_pop_inBounds hb, s.popped_sp_toNat⟩, exec_pop_outOfBounds⟩

/-! ## The stack laws (spec/41_stack.md R77) -/

/-- A POP after a push has its word in bounds, gives it to `acc`, and takes `sp` back. -/
theorem exec_pop_pushed {s : State} (hwf : Memory.wf s.mem = true) (hsize : s.memSize ≤ 65536)
    (hb : s.InBounds (s.sp.toNat + 1)) (v : Word) (n : Nat) :
    exec .pop (s.pushed v n) = .next (s.pushed v n).popped ∧ (s.pushed v n).popped.acc = v ∧
      (s.pushed v n).popped.sp = s.sp := by
  have hsp : (s.pushed v n).sp.toNat = s.sp.toNat + 1 := State.pushed_sp_toNat hsize hb v n
  have hb' : (s.pushed v n).InBounds (s.pushed v n).sp.toNat := by
    rw [hsp]
    exact hb
  refine ⟨exec_pop_inBounds hb', ?_, BitVec.eq_of_toNat_eq (State.popped_sp_toNat_of_succ hsp)⟩
  change (s.pushed v n).readWord (s.pushed v n).sp.toNat = v
  rw [hsp]
  exact State.readWord_of_holdsWord (State.holdsWord_pushed hwf v n)

/-- Settles O48: PSH and PAC push, and POP undoes a push. -/
theorem pushThenPopRestores : Obligations.PushThenPopRestores :=
  fun s v hwf hsize hb =>
    ⟨⟨_, _, (exec_psh v s).trans (pushWord_inBounds hb v 3), exec_pop_pushed hwf hsize hb v 3⟩,
      ⟨_, _, (exec_pac s).trans (pushWord_inBounds hb s.acc 1), exec_pop_pushed hwf hsize hb s.acc 1⟩⟩

/-- After two pushes the first word's low byte and the whole second word lie above the old `sp`: the second push writes
from `sp + 2` on. -/
theorem bytes_of_two_pushes {s : State} (hwf : Memory.wf s.mem = true) (hsize : s.memSize ≤ 65536)
    (hb : s.InBounds (s.sp.toNat + 1)) (v1 v2 : Word) (n1 n2 : Nat) :
    ((s.pushed v1 n1).pushed v2 n2).readByte (s.sp.toNat + 1) = loByte v1 ∧
      HoldsWord ((s.pushed v1 n1).pushed v2 n2) (s.sp.toNat + 2) v2 := by
  have hsp : (s.pushed v1 n1).sp.toNat = s.sp.toNat + 1 := State.pushed_sp_toNat hsize hb v1 n1
  obtain ⟨hlow, -⟩ : HoldsWord (s.pushed v1 n1) (s.sp.toNat + 1) v1 := State.holdsWord_pushed hwf v1 n1
  have hframe := State.sameMemoryOutside_pushed (s.pushed v1 n1) v2 n2
  have hword := State.holdsWord_pushed (State.pushed_memCanonical hwf v1 n1) v2 n2
  rw [hsp] at hframe hword
  exact ⟨(hframe _ (by omega) (by omega)).trans hlow, hword⟩

/-- Settles O49: the first POP undoes the second push, and the second reads the bytes at `sp + 1` and `sp + 2`. -/
theorem twoPushesOverlap : Obligations.TwoPushesOverlap := by
  intro s v1 v2 hwf hsize hb
  have hb1 : s.InBounds (s.sp.toNat + 1) := Nat.lt_of_succ_lt hb
  have hsp1 : (s.pushed v1 3).sp.toNat = s.sp.toNat + 1 := State.pushed_sp_toNat hsize hb1 v1 3
  have hb2 : (s.pushed v1 3).InBounds ((s.pushed v1 3).sp.toNat + 1) := by
    rw [hsp1]
    exact hb
  obtain ⟨hbyte1, hbyte2, hbyte3⟩ := bytes_of_two_pushes hwf hsize hb1 v1 v2 3 3
  obtain ⟨hpop, hacc, hsp⟩ := exec_pop_pushed (State.pushed_memCanonical hwf v1 3) hsize hb2 v2 3
  have hpush1 : exec (.psh v1) s = .next (s.pushed v1 3) := pushWord_inBounds hb1 v1 3
  have hpush2 : exec (.psh v2) (s.pushed v1 3) = .next ((s.pushed v1 3).pushed v2 3) := pushWord_inBounds hb2 v2 3
  have hsize' : ((s.pushed v1 3).pushed v2 3).popped.memSize = s.memSize := rfl
  generalize (s.pushed v1 3).pushed v2 3 = u at *
  have hsp' : u.popped.sp.toNat = s.sp.toNat + 1 := by rw [hsp, hsp1]
  have hb3 : u.popped.InBounds u.popped.sp.toNat := by
    rw [State.InBounds, hsp', hsize']
    exact hb1
  have hq : u.popped.popped.acc = wordOfBytes (u.readByte (s.sp.toNat + 1)) (u.readByte (s.sp.toNat + 2)) :=
    congrArg u.popped.readWord hsp'
  refine ⟨_, u, _, _, hpush1, hpush2, hbyte1, hbyte2, hbyte3, hpop, hacc, exec_pop_inBounds hb3, ?_,
    BitVec.eq_of_toNat_eq (State.popped_sp_toNat_of_succ hsp')⟩
  rw [hq, wordOfBytes_toNat, hbyte1, hbyte2, loByte_toNat]
  exact congrArg (256 * · + _) (loByte_toNat v2)

/-! ## Compare (spec/42_acc_memory.md R80) -/

theorem exec_cmp (a1 a2 : Word) (s : State) :
    exec (.cmp a1 a2) s =
      withOperand a1 s fun m1 => withOperand a2 s fun m2 => setAccNext (compareResult m1 m2) .fww s := rfl

/-- The five-byte instruction that replaces `acc` changes it and `ip`, nothing else. -/
theorem setAccNext_fww (v : Word) (s : State) : setAccNext v .fww s = .next { s with acc := v, ip := s.ip + 5 } := rfl

/-- With the word at `a1` in bounds, CMP goes on to the one at `a2`. -/
theorem exec_cmp_first_inBounds {a1 : Word} {s : State} (h1 : s.InBounds a1.toNat) (a2 : Word) :
    exec (.cmp a1 a2) s =
      withOperand a2 s fun m => setAccNext (compareResult (s.readWord a1.toNat) m) .fww s :=
  (exec_cmp a1 a2 s).trans (withOperand_inBounds h1)

/-- With both words in bounds, CMP delivers their comparison. -/
theorem exec_cmp_inBounds {a1 a2 : Word} {s : State} (h1 : s.InBounds a1.toNat) (h2 : s.InBounds a2.toNat) :
    exec (.cmp a1 a2) s =
      .next { s with acc := compareResult (s.readWord a1.toNat) (s.readWord a2.toNat), ip := s.ip + 5 } :=
  (exec_cmp_first_inBounds h1 a2).trans ((withOperand_inBounds h2).trans (setAccNext_fww _ s))

/-- Settles O12: the two checks in order, and behind them the two results of the compare. -/
theorem cmpComparesMemoryWordsInOrder : Obligations.CmpComparesMemoryWordsInOrder := by
  intro om a1 a2 s
  refine ⟨rfl, fun h1 h2 => ⟨fun heq => ?_, fun hne => ?_⟩, fun h1 => ?_, fun h1 h2 => ?_⟩
  · rw [exec_cmp_inBounds h1 h2, compareResult_of_eq heq]
  · rw [exec_cmp_inBounds h1 h2, compareResult_of_ne hne]
  · exact (exec_cmp a1 a2 s).trans (withOperand_outOfBounds h1)
  · exact (exec_cmp_first_inBounds h1 a2).trans (withOperand_outOfBounds h2)

/-! ## Division (spec/43_alu.md R86, R87) -/

theorem exec_div (a : Word) (s : State) :
    exec (.div a) s = withDivisor a s fun m => setAccNext (aluDiv s.acc m) .fw s := rfl

theorem exec_mod (a : Word) (s : State) :
    exec (.mod a) s = withDivisor a s fun m => setAccNext (aluMod s.acc m) .fw s := rfl

/-- A divisor in bounds and not zero is used. -/
theorem withDivisor_nonzero {a : Word} {s : State} {k : Word → Result} (hb : s.InBounds a.toNat)
    (hm : s.readWord a.toNat ≠ 0) : withDivisor a s k = k (s.readWord a.toNat) :=
  (withOperand_inBounds hb).trans (if_neg hm)

/-- A zero divisor in bounds faults (decision D11). -/
theorem withDivisor_zero {a : Word} {s : State} {k : Word → Result} (hb : s.InBounds a.toNat)
    (hm : s.readWord a.toNat = 0) : withDivisor a s k = raiseFatal .divideByZero (a.setWidth 17) s :=
  (withOperand_inBounds hb).trans (if_pos hm)

/-- The bounds of a divisor are checked before its value (decision D21). -/
theorem withDivisor_outOfBounds {a : Word} {s : State} {k : Word → Result} (hb : ¬ s.InBounds a.toNat) :
    withDivisor a s k = raiseFatal .outOfBounds (a.setWidth 17) s :=
  withOperand_outOfBounds hb

/-- DIV with a divisor to use: `acc` and `ip` change and nothing else. -/
theorem exec_div_nonzero {a : Word} {s : State} (hb : s.InBounds a.toNat) (hm : s.readWord a.toNat ≠ 0) :
    exec (.div a) s = .next { s with acc := aluDiv s.acc (s.readWord a.toNat), ip := s.ip + 3 } :=
  (exec_div a s).trans ((withDivisor_nonzero hb hm).trans (setAccNext_fw _ s))

/-- MOD with a divisor to use: `acc` and `ip` change and nothing else. -/
theorem exec_mod_nonzero {a : Word} {s : State} (hb : s.InBounds a.toNat) (hm : s.readWord a.toNat ≠ 0) :
    exec (.mod a) s = .next { s with acc := aluMod s.acc (s.readWord a.toNat), ip := s.ip + 3 } :=
  (exec_mod a s).trans ((withDivisor_nonzero hb hm).trans (setAccNext_fw _ s))

/-- The remainder of a nonzero divisor is below it. -/
theorem aluMod_toNat_lt {m : Word} (hm : m ≠ 0) (x : Word) : (aluMod x m).toNat < m.toNat := by
  rw [aluMod_toNat]
  exact Nat.mod_lt _ (Nat.pos_of_ne_zero fun h => hm (BitVec.eq_of_toNat_eq h))

/-- Settles O18: the three cases of the divisor. -/
theorem divDividesUnsignedOrFaults : Obligations.DivDividesUnsignedOrFaults :=
  fun _ a s => ⟨rfl, fun hb hm => ⟨_, exec_div_nonzero hb hm, aluDiv_toNat _ _⟩,
    fun hb hm => (exec_div a s).trans (withDivisor_zero hb hm),
    fun hb => (exec_div a s).trans (withDivisor_outOfBounds hb)⟩

/-- Settles O19: the three cases of the divisor; a nonzero one bounds the remainder. -/
theorem modTakesUnsignedRemainderOrFaults : Obligations.ModTakesUnsignedRemainderOrFaults :=
  fun _ a s => ⟨rfl, fun hb hm => ⟨_, exec_mod_nonzero hb hm, aluMod_toNat _ _, aluMod_toNat_lt hm _⟩,
    fun hb hm => (exec_mod a s).trans (withDivisor_zero hb hm),
    fun hb => (exec_mod a s).trans (withDivisor_outOfBounds hb)⟩

/-- Settles O50: the division law of the natural numbers, on the values DIV and MOD deliver. -/
theorem divAndModAgree : Obligations.DivAndModAgree := by
  intro s a hb hm
  refine ⟨_, _, exec_div_nonzero hb hm, exec_mod_nonzero hb hm, ?_, aluMod_toNat_lt hm s.acc⟩
  change (aluDiv s.acc _).toNat * _ + (aluMod s.acc _).toNat = _
  rw [aluDiv_toNat, aluMod_toNat, Nat.mul_comm]
  exact Nat.div_add_mod _ _

/-! ## Storing a register and loading it back (spec/20_memory.md R45) -/

/-- A word stored by LCA or LSP is what the next word read at its address gives. -/
theorem readWord_after_store {s t : State} (hwf : Memory.wf s.mem = true) {a : Nat} {v : Word}
    (hmem : t.mem = (s.writeWord a v).mem) : t.readWord a = v := by
  have hread : t.readWord a = (s.writeWord a v).readWord a := by
    simp only [State.readWord, State.readByte, hmem]
  rw [hread, State.readWord_writeWord hwf]

/-- Settles O47: each store is in bounds and leaves its register in memory, which changing the register keeps. -/
theorem storeThenLoadGivesBack : Obligations.StoreThenLoadGivesBack := by
  intro s a v hwf hb
  refine ⟨⟨_, _, (exec_lca a s).trans (storeNext_inBounds hb s.acc), (exec_sca a _).trans (withOperand_inBounds hb),
      readWord_after_store hwf rfl⟩,
    ⟨_, _, storeNext_inBounds hb s.sp, (exec_ssp a _).trans (withOperand_inBounds hb), readWord_after_store hwf rfl⟩⟩

/-! ## Reading a device (spec/44_device_io.md R97, R98, R100) -/

theorem exec_raw (s : State) : exec .raw s = execRaw s := rfl

/-- A read that answers a value puts it into `acc` and advances. -/
theorem exec_raw_of_value {s t : State} {r : Word} (h : devRead s.device s = some (r, t)) :
    exec .raw s = .next { t with acc := r, ip := t.ip + 1 } :=
  (exec_raw s).trans ((execRaw_of_value h).trans (setAccNext_f0 r t))

/-- A byte that is there is read (R97). -/
theorem exec_raw_byte {s : State} {c : Byte} {cs : List Byte} (hd : s.device = 0) (hi : s.input = c :: cs) :
    exec .raw s = .next { s with acc := c.setWidth 16, input := cs, ip := s.ip + 1 } :=
  exec_raw_of_value (devRead_byte hd hi)

/-- At the end of a closed input the sentinel is read (decision D12). -/
theorem exec_raw_endOfInput {s : State} (hd : s.device = 0) (hi : s.input = []) (hc : s.inputClosed = true) :
    exec .raw s = .next { s with acc := s.eofSentinel, ip := s.ip + 1 } :=
  exec_raw_of_value (devRead_endOfInput hd hi hc)

/-- While the read waits, only the host moves (decision D13). -/
theorem exec_raw_waits {s : State} (h : s.Waiting) : exec .raw s = .next s.hostActs :=
  (exec_raw s).trans (execRaw_waits h)

/-- Settles O27: the four cases of the device read. -/
theorem rawReadsSelectedDeviceOrWaits : Obligations.RawReadsSelectedDeviceOrWaits := by
  intro om s
  refine ⟨rfl, fun c cs => exec_raw_byte, exec_raw_endOfInput, fun hd => exec_raw_of_value (devRead_unknown hd s),
    fun hw => ?_⟩
  obtain ⟨cs, closed, acts, hacts⟩ := s.hostActs_core
  exact ⟨cs, closed, acts, hacts ▸ exec_raw_waits hw⟩

theorem State.hostActs_none {s : State} (h : s.hostActions = []) : s.hostActs = s := by
  simp only [State.hostActs, h]

theorem State.hostActs_supply {s : State} {c : Byte} {acts : List HostAction}
    (h : s.hostActions = .supply c :: acts) :
    s.hostActs = { s with input := s.input ++ [c], hostActions := acts } := by
  simp only [State.hostActs, h]

theorem State.hostActs_close {s : State} {acts : List HostAction} (h : s.hostActions = .close :: acts) :
    s.hostActs = { s with inputClosed := true, hostActions := acts } := by
  simp only [State.hostActs, h]

/-- Settles O28: the wait gives the move to the host, after whose byte or close the read has a value; taking the one
byte supplied leaves the input empty as before. -/
theorem waitingReadHoldsUntilHostActs : Obligations.WaitingReadHoldsUntilHostActs := by
  intro s hw
  have hwait : exec .raw s = .next s.hostActs := exec_raw_waits hw
  obtain ⟨hd, hi, -⟩ := hw
  refine ⟨fun hnone => ?_, fun c acts hacts => ?_, fun acts hacts => ?_⟩
  · rw [hwait, State.hostActs_none hnone]
  · rw [State.hostActs_supply hacts, hi] at hwait
    refine ⟨_, hwait, ?_⟩
    rw [hi]
    exact exec_raw_byte hd rfl
  · rw [State.hostActs_close hacts] at hwait
    exact ⟨_, hwait, exec_raw_endOfInput hd hi rfl⟩

end Sys2Proof.Machine

namespace Sys2Proof.Machine

/-! ## The step at the other fetches, and after the end (spec/40_loop_and_control.md R62, R64) -/

/-- A running step on an instruction is its meaning. -/
theorem step_of_fetch_instr {s : State} {i : Instr} {rest : List Byte} (hadm : s.admitted = true)
    (hrun : s.status = .running) (hf : fetch s = .instr i rest) : step s = exec i s := by
  simp only [step, hadm, hrun, hf, if_true]

/-- With the operands not all there, a running step overruns (R64). -/
theorem step_of_fetch_truncated {s : State} {m : Mnemonic} (hadm : s.admitted = true) (hrun : s.status = .running)
    (hf : fetch s = .truncated m) : step s = raiseFatal .ipOverrun s.ip s := by
  simp only [step, hadm, hrun, hf, if_true]

/-- An opcode whose operands run past `PROG_LEN` is fetched as truncated (R64). -/
theorem fetch_truncated {s : State} {m : Mnemonic} (hmap : s.opcodeMap.injective = true)
    (hop : s.prog[s.ip.toNat]? = some (s.opcodeMap.byteOf m))
    (hshort : s.prog.length < s.ip.toNat + 1 + m.format.operandSize) : fetch s = .truncated m := by
  obtain ⟨hlt, hbyte⟩ := List.getElem?_eq_some_iff.mp hop
  have hbytes : s.bytesAtIp = s.opcodeMap.byteOf m :: s.prog.drop (s.ip.toNat + 1) := by
    rw [State.bytesAtIp, List.drop_eq_getElem_cons hlt, hbyte]
  have hrest : (s.prog.drop (s.ip.toNat + 1)).length < m.format.operandSize := by
    rw [List.length_drop]
    omega
  rw [fetch, hbytes, decode_truncated hmap hrest]

/-- Settles O31: the fetch is the decoder at `ip`, which reads an encoding back. -/
theorem stepRunsDecodedInstruction : Obligations.StepRunsDecodedInstruction := by
  intro s i rest hadm hrun _
  obtain ⟨-, -, hmap, -⟩ := State.admitted_iff.mp hadm
  refine ⟨fun hdec => step_of_fetch_instr hadm hrun hdec, fun henc => ?_⟩
  have hf : fetch s = .instr i rest := by rw [fetch, State.bytesAtIp, henc, decode_encode hmap]
  exact step_of_fetch_instr hadm hrun hf

/-- Settles O32: both overruns are told by the fetch, before any instruction is executed. -/
theorem programOverrunFaultsBeforeAnyEffect : Obligations.ProgramOverrunFaultsBeforeAnyEffect := by
  intro s hadm hrun
  obtain ⟨-, -, hmap, -⟩ := State.admitted_iff.mp hadm
  exact ⟨fun hpast => step_of_fetch_noByte hadm hrun (fetch_past_program hpast),
    fun m hop hshort => step_of_fetch_truncated hadm hrun (fetch_truncated hmap hop hshort)⟩

/-- Settles O33: `step` looks at the status before it fetches. -/
theorem endedRunTakesNoStep : Obligations.EndedRunTakesNoStep := by
  intro s hadm
  refine ⟨fun hhalted => ?_, fun hfaulted => ?_⟩
  · simp only [step, hadm, hhalted, if_true]
  · simp only [step, hadm, hfaulted, if_true]

/-! ## Launch and reset (spec/00_scope.md R5, R6, spec/70_reset_and_hazards.md R119) -/

theorem launch_of_admitted {l : Launch} (h : launchAdmitted l = true) : launch l = .next (State.ofLaunch l) := if_pos h

theorem launch_of_not_admitted {l : Launch} (h : ¬ launchAdmitted l = true) : launch l = .refused .launchNotAdmitted :=
  if_neg h

theorem step_of_not_admitted {s : State} (h : ¬ s.admitted = true) : step s = .refused .launchNotAdmitted := if_neg h

/-- A parameter outside its range is enough not to be admitted (R5, R6). -/
theorem not_paramsAdmitted {prog : List Byte} {n : Nat} {om : OpcodeMap} {eof : Word}
    (h : 65536 < prog.length ∨ 65536 < n ∨ om.injective = false ∨ eof.toNat ≤ 0x00FF) :
    ¬ paramsAdmitted prog n om eof = true := by
  rw [paramsAdmitted_iff]
  rintro ⟨hprog, hsize, hmap, heof⟩
  rcases h with h | h | h | h
  · omega
  · omega
  · cases hmap.symm.trans h
  · omega

/-- The bare launch's program, map and sentinel are in range, with every memory size that is. -/
theorem paramsAdmitted_bareLaunch {n : Nat} (h : n ≤ 65536) :
    paramsAdmitted bareLaunch.prog n bareLaunch.opcodeMap bareLaunch.eofSentinel = true :=
  paramsAdmitted_iff.mpr ⟨by decide, h, OpcodeMap.default_injective, by decide⟩

theorem launchAdmitted_bareLaunch : launchAdmitted bareLaunch = true :=
  launchAdmitted_iff.mpr ⟨paramsAdmitted_bareLaunch (Nat.le_refl _), rfl, rfl⟩

/-- Settles O34: an admitted launch answers the state `State.ofLaunch` lists, and the bare launch is admitted. -/
theorem launchSetsResetState : Obligations.LaunchSetsResetState :=
  ⟨fun l h => ⟨State.ofLaunch l, launch_of_admitted h, rfl, rfl, rfl, rfl, rfl, rfl, rfl, rfl, fun _ _ => rfl,
      rfl, rfl, rfl, rfl, rfl, rfl⟩,
    (launch_of_admitted launchAdmitted_bareLaunch).trans (congrArg _ State.reset_eq_ofLaunch.symm)⟩

/-- Settles O35: `launch` and `step` both ask whether the parameters are admitted. -/
theorem launchOutOfRangeIsRefused : Obligations.LaunchOutOfRangeIsRefused :=
  ⟨fun _ h => launch_of_not_admitted fun hadm => not_paramsAdmitted h (launchAdmitted_iff.mp hadm).1,
    fun _ h => step_of_not_admitted (not_paramsAdmitted h), fun _ => rfl⟩

/-- The reset of an admitted launch meets the invariant. -/
theorem State.Inv.ofLaunch {l : Launch} (h : launchAdmitted l = true) : (State.ofLaunch l).Inv := by
  obtain ⟨hparams, hwf, hin⟩ := launchAdmitted_iff.mp h
  exact {
    admitted := hparams
    memCanonical := hwf
    memWithin := hin
    ipInRange := Nat.zero_le _
    faultRecord := iff_of_false Bool.noConfusion RunStatus.noConfusion }

/-- Settles O37: `State.reset` is the reset of the bare launch, which is admitted. -/
theorem launchEstablishesInvariant : Obligations.LaunchEstablishesInvariant :=
  ⟨State.reset_eq_ofLaunch ▸ State.Inv.ofLaunch launchAdmitted_bareLaunch, fun _ => State.Inv.ofLaunch⟩

/-! ## Every memory contents is some launch's (decision D3) -/

/-- The memory that reads as `f` below `n`: the bytes written one after the other. -/
def memoryOf (f : Nat → Byte) : Nat → Memory
  | 0     => []
  | n + 1 => Memory.writeByte (memoryOf f n) n (f n)

theorem memoryOf_canonical (f : Nat → Byte) (n : Nat) : Memory.wf (memoryOf f n) = true := by
  induction n with
  | zero => rfl
  | succ n ih => exact Memory.wf_writeByte ih n (f n)

theorem memoryOf_within (f : Nat → Byte) {n k : Nat} (h : n ≤ k) : Memory.within k (memoryOf f n) = true := by
  induction n with
  | zero => rfl
  | succ n ih => exact Memory.within_writeByte (f n) h (ih (Nat.le_of_succ_le h))

theorem readByte_memoryOf (f : Nat → Byte) {n a : Nat} (h : a < n) : Memory.readByte (memoryOf f n) a = f a := by
  induction n with
  | zero => cases h
  | succ n ih =>
    rcases Nat.lt_succ_iff_lt_or_eq.mp h with hlt | rfl
    · exact (Memory.readByte_writeByte_other _ _ (Nat.ne_of_lt hlt)).trans (ih hlt)
    · exact Memory.readByte_writeByte_same (memoryOf_canonical f a) a (f a)

/-- Settles O36: the bare launch with the size and the memory asked for. -/
theorem everyInitialMemoryHasALaunch : Obligations.EveryInitialMemoryHasALaunch := by
  intro f n hn
  have hadm : launchAdmitted { bareLaunch with memSize := n, memInit := memoryOf f n } = true :=
    launchAdmitted_iff.mpr
      ⟨paramsAdmitted_bareLaunch hn, memoryOf_canonical f n, memoryOf_within f (Nat.le_refl n)⟩
  exact ⟨_, hadm, rfl, fun a ha => readByte_memoryOf f ha⟩

/-! ## The state dump (spec/10_state.md R28) -/

theorem dumpState_running {s : State} (h : s.status = .running) : dumpState s = none :=
  if_neg (by simp [State.ended, h])

theorem dumpState_ended {s : State} (h : s.status ≠ .running) :
    dumpState s = some { ip := s.ip, sp := s.sp, acc := s.acc, device := s.device, status := s.status.code,
                         faultCode := faultCode s.fault, faultInfo := faultInfo s.fault,
                         incidents := s.incidents.map incidentEntry } :=
  if_pos (bne_iff_ne.mpr h)

/-- An ended run has status code 1 or 2 (R19). -/
theorem statusCode_ended {s : State} (h : s.status ≠ .running) :
    s.status.code = if s.status = .halted then 1 else 2 := by
  cases hs : s.status with
  | running => exact absurd hs h
  | halted => rfl
  | faulted => rfl

/-- An empty fault record is dumped with code 0 and no information value (R102). -/
theorem faultFields_empty {r : Option FaultRecord} (h : r = none) : faultCode r = 0 ∧ faultInfo r = none := by
  rw [h]
  exact ⟨rfl, rfl⟩

/-- A written fault record is dumped with the code of its kind (R102). -/
theorem faultFields_written {r : Option FaultRecord} {k : FatalKind} {info : Offset} (h : r = some ⟨k, info⟩) :
    faultCode r = k.code ∧ faultInfo r = some info := by
  rw [h]
  exact ⟨rfl, rfl⟩

/-- Settles O60: the dump of an ended run lists the registers and the codes; the incidents are dumped in place, each
with the code of its kind (R105). -/
theorem dumpPresentsEndedRun : Obligations.DumpPresentsEndedRun := by
  refine ⟨fun s h => dumpState_running h, fun s h => ⟨_, dumpState_ended h, rfl, rfl, rfl, rfl, statusCode_ended h,
    faultFields_empty, fun _ => faultFields_written, fun _ => faultFields_written, fun _ => faultFields_written,
    fun _ => faultFields_written, List.length_map _, fun n x hx => ?_⟩⟩
  rw [List.getElem?_map, hx]
  obtain ⟨kind, ip, value⟩ := x
  cases kind <;> rfl

end Sys2Proof.Machine

namespace Sys2Proof.Machine

/-! ## The logs are invisible to the program (spec/10_state.md R18, spec/60_exceptions.md section 6) -/

/-- `s` with another incident log and another console output. -/
def State.withLogs (log : List Incident) (out : List Byte) (s : State) : State :=
  { s with incidents := log, output := out }

/-- If `r` answers a next state, so does `r'`, with one that differs in the incident log and the output at most. -/
def NextUpToLogs (r r' : Result) : Prop :=
  ∀ t, r = .next t → ∃ u, r' = .next u ∧ u.withLogs t.incidents t.output = t

theorem nextUpToLogs_next {t u : State} (h : u.withLogs t.incidents t.output = t) :
    NextUpToLogs (.next t) (.next u) := by
  rintro _ ⟨⟩
  exact ⟨u, rfl, h⟩

section
variable (s : State) (log : List Incident) (out : List Byte)

theorem nextUpToLogs_raiseFatal (k : FatalKind) (info : Offset) :
    NextUpToLogs (raiseFatal k info s) (raiseFatal k info (s.withLogs log out)) :=
  nextUpToLogs_next rfl

/-- A checked read goes the same way under other logs: it looks at memory and its size only. -/
theorem nextUpToLogs_withOperand (a : Word) {k k' : Word → Result} (h : ∀ m, NextUpToLogs (k m) (k' m)) :
    NextUpToLogs (withOperand a s k) (withOperand a (s.withLogs log out) k') := by
  by_cases hb : s.InBounds a.toNat
  · have hb' : (s.withLogs log out).InBounds a.toNat := hb
    rw [withOperand_inBounds hb, withOperand_inBounds hb']
    exact h (s.readWord a.toNat)
  · have hb' : ¬ (s.withLogs log out).InBounds a.toNat := hb
    rw [withOperand_outOfBounds hb, withOperand_outOfBounds hb']
    exact nextUpToLogs_raiseFatal s log out _ _

/-- The instructions that replace `acc` by a function of a memory word. -/
theorem nextUpToLogs_accOperand (a : Word) (g : Word → Word) (f : Format) :
    NextUpToLogs (withOperand a s fun m => setAccNext (g m) f s)
      (withOperand a (s.withLogs log out) fun m => setAccNext (g m) f (s.withLogs log out)) :=
  nextUpToLogs_withOperand s log out a fun _ => nextUpToLogs_next rfl

theorem nextUpToLogs_divisor (a : Word) (g : Word → Word) :
    NextUpToLogs (withDivisor a s fun m => setAccNext (g m) .fw s)
      (withDivisor a (s.withLogs log out) fun m => setAccNext (g m) .fw (s.withLogs log out)) := by
  refine nextUpToLogs_withOperand s log out a fun m => ?_
  by_cases hm : m = 0
  · rw [if_pos hm, if_pos hm]
    exact nextUpToLogs_raiseFatal s log out _ _
  · rw [if_neg hm, if_neg hm]
    exact nextUpToLogs_next rfl

/-- LCA and LSP. -/
theorem nextUpToLogs_store (a v : Word) :
    NextUpToLogs (storeNext a v s) (storeNext a v (s.withLogs log out)) :=
  nextUpToLogs_withOperand s log out a (k := fun _ => .next ((s.writeWord a.toNat v).advance Format.fw.length))
    (k' := fun _ => .next (((s.withLogs log out).writeWord a.toNat v).advance Format.fw.length))
    fun _ => nextUpToLogs_next rfl

/-- PSH and PAC. -/
theorem nextUpToLogs_push (v : Word) (n : Nat) :
    NextUpToLogs (pushWord v n s) (pushWord v n (s.withLogs log out)) := by
  by_cases hb : s.InBounds (s.sp.toNat + 1)
  · have hb' : (s.withLogs log out).InBounds ((s.withLogs log out).sp.toNat + 1) := hb
    rw [pushWord_inBounds hb, pushWord_inBounds hb']
    exact nextUpToLogs_next rfl
  · have hb' : ¬ (s.withLogs log out).InBounds ((s.withLogs log out).sp.toNat + 1) := hb
    rw [pushWord_outOfBounds hb, pushWord_outOfBounds hb']
    exact nextUpToLogs_raiseFatal s log out _ _

theorem nextUpToLogs_cmp (a1 a2 : Word) :
    NextUpToLogs (exec (.cmp a1 a2) s) (exec (.cmp a1 a2) (s.withLogs log out)) :=
  nextUpToLogs_withOperand s log out a1 fun m1 => nextUpToLogs_accOperand s log out a2 (compareResult m1) .fww

theorem nextUpToLogs_jnz (d : Word) : NextUpToLogs (exec (.jnz d) s) (exec (.jnz d) (s.withLogs log out)) := by
  by_cases h : s.acc = 0
  · have h' : (s.withLogs log out).acc = 0 := h
    rw [exec_jnz_notTaken h, exec_jnz_notTaken h']
    exact nextUpToLogs_next rfl
  · have h' : (s.withLogs log out).acc ≠ 0 := h
    rw [exec_jnz_taken h, exec_jnz_taken h']
    exact nextUpToLogs_next rfl

/-- WAW appends to one of the logs, and to no other part of the state. -/
theorem nextUpToLogs_waw : NextUpToLogs (exec .waw s) (exec .waw (s.withLogs log out)) := by
  by_cases hd : s.device = 0
  · have hd' : (s.withLogs log out).device = 0 := hd
    rw [exec_waw_console hd, exec_waw_console hd']
    exact nextUpToLogs_next rfl
  · have hd' : (s.withLogs log out).device ≠ 0 := hd
    rw [exec_waw_unknown hd, exec_waw_unknown hd']
    exact nextUpToLogs_next rfl

/-- The host's move is the same under other logs. -/
theorem State.hostActs_withLogs : (s.withLogs log out).hostActs = s.hostActs.withLogs log out := by
  cases hacts : s.hostActions with
  | nil => rw [State.hostActs_none hacts, State.hostActs_none (s := s.withLogs log out) hacts]
  | cons act acts =>
    cases act with
    | supply c =>
      rw [State.hostActs_supply hacts, State.hostActs_supply (s := s.withLogs log out) hacts]
      rfl
    | close =>
      rw [State.hostActs_close hacts, State.hostActs_close (s := s.withLogs log out) hacts]
      rfl

/-- RAW, in the four cases of the device read. -/
theorem nextUpToLogs_raw : NextUpToLogs (exec .raw s) (exec .raw (s.withLogs log out)) := by
  rcases devRead_cases s with ⟨hd, h⟩ | ⟨hd, c, cs, hi, -⟩ | ⟨hd, hi, hc, -⟩ | ⟨hw, -⟩
  · rw [exec_raw_of_value h, exec_raw_of_value (s := s.withLogs log out) (devRead_unknown hd _)]
    exact nextUpToLogs_next rfl
  · rw [exec_raw_byte hd hi, exec_raw_byte (s := s.withLogs log out) hd hi]
    exact nextUpToLogs_next rfl
  · rw [exec_raw_endOfInput hd hi hc, exec_raw_endOfInput (s := s.withLogs log out) hd hi hc]
    exact nextUpToLogs_next rfl
  · rw [exec_raw_waits hw, exec_raw_waits (s := s.withLogs log out) hw, State.hostActs_withLogs]
    exact nextUpToLogs_next rfl

/-- No instruction reads a log: each answers the same next state under others, up to these. -/
theorem nextUpToLogs_exec (i : Instr) : NextUpToLogs (exec i s) (exec i (s.withLogs log out)) := by
  cases i with
  | nop | jmp _ | sel _ | ldc _ | inc | dec | not | hlt => exact nextUpToLogs_next rfl
  | psh v => exact nextUpToLogs_push s log out v 3
  | pac => exact nextUpToLogs_push s log out s.acc 1
  | pop => exact nextUpToLogs_withOperand s log out s.sp fun _ => nextUpToLogs_next rfl
  | ssp a => exact nextUpToLogs_withOperand s log out a fun _ => nextUpToLogs_next rfl
  | lsp a => exact nextUpToLogs_store s log out a s.sp
  | lca a => exact nextUpToLogs_store s log out a s.acc
  | sca a => exact nextUpToLogs_accOperand s log out a (fun m => m) .fw
  | cma a => exact nextUpToLogs_accOperand s log out a (fun m => compareResult m s.acc) .fw
  | add a => exact nextUpToLogs_accOperand s log out a (aluAdd s.acc) .fw
  | sub a => exact nextUpToLogs_accOperand s log out a (aluSub s.acc) .fw
  | mul a => exact nextUpToLogs_accOperand s log out a (aluMul s.acc) .fw
  | and a => exact nextUpToLogs_accOperand s log out a (fun m => s.acc &&& m) .fw
  | bor a => exact nextUpToLogs_accOperand s log out a (fun m => s.acc ||| m) .fw
  | xor a => exact nextUpToLogs_accOperand s log out a (fun m => s.acc ^^^ m) .fw
  | div a => exact nextUpToLogs_divisor s log out a (aluDiv s.acc)
  | mod a => exact nextUpToLogs_divisor s log out a (aluMod s.acc)
  | cmp a1 a2 => exact nextUpToLogs_cmp s log out a1 a2
  | jnz d => exact nextUpToLogs_jnz s log out d
  | waw => exact nextUpToLogs_waw s log out
  | raw => exact nextUpToLogs_raw s log out

end

/-- Settles O58: the fetch and the status are the same under other logs, and so is what follows, up to the logs. -/
theorem logsAreInvisibleToTheProgram : Obligations.LogsAreInvisibleToTheProgram := by
  intro s t log out hstep
  change ∃ u, step (s.withLogs log out) = .next u ∧ u.withLogs t.incidents t.output = t
  have hfetch : fetch (s.withLogs log out) = fetch s := fetch_eq_of_program rfl rfl rfl
  obtain ⟨hadm, hrun, ⟨⟨hpast, -⟩ | ⟨m, hf⟩, rfl⟩ | ⟨op, hf, rfl⟩ | ⟨i, rest, hf, hexec⟩⟩ := step_cases hstep
  · exact ⟨_, step_of_fetch_noByte (s := s.withLogs log out) hadm hrun (fetch_past_program hpast), rfl⟩
  · exact ⟨_, step_of_fetch_truncated (s := s.withLogs log out) hadm hrun (hfetch.trans hf), rfl⟩
  · exact ⟨_, step_of_fetch_unknownOpcode (s := s.withLogs log out) hadm hrun (hfetch.trans hf), rfl⟩
  · rw [step_of_fetch_instr (s := s.withLogs log out) hadm hrun (hfetch.trans hf)]
    exact nextUpToLogs_exec s log out i t hexec

end Sys2Proof.Machine
